-- ==== Sys2Proof/Word.lean ====
section
/-! DEFINITION. The block's words (R6: `WORD` is 32 bits) and the constant `ALL_ONES`. -/

namespace Sys2Proof

/-- Every register cell and every bus data word (R6, R8). -/
abbrev Word := BitVec 32

/-- The 16-bit transaction header `H` (R54). -/
abbrev Header := BitVec 16

/-- `ALL_ONES` (R6). -/
def allOnes : Word := 0xFFFFFFFF

end Sys2Proof
end

