-- ==== Sys2Proof/Syntax.lean ====
section
/-! DEFINITION. The devices, the bus transaction, and the instructions: one constructor of `Instr` for each row of
spec/opcode_table.json (R61 to R64), its operands as wide as the row's pattern gives them. -/

namespace Sys2Proof

/-- The closed set of device kinds (R12). -/
inductive Dev where
  | fsb | mu | sim0 | tstmr
deriving DecidableEq, Repr

/-- What the bus hands to the block: the header, the access size in bytes, the write word (R53). -/
structure Transaction where
  header : Header
  size : Nat
  wdata : Word
deriving DecidableEq, Repr

/-- One constructor for each row of the opcode table. `i`, `n` are the row's index bits and `o` the offset bits the
row ignores (all of them bits of `OFF` from bit 2 up, R56); `v` is `WDATA` (R53). -/
inductive Instr where
  /-- FSB.RD, `i = OFF[9:2]` (R84). -/
  | fsbRd (i : BitVec 8)
  /-- FSB.RD.ZERO, `o = OFF[9:2]` (R85). -/
  | fsbRdZero (o : BitVec 8)
  /-- FSB.WR, `o = OFF[10:2]` (R86). -/
  | fsbWr (o : BitVec 9) (v : Word)
  /-- MU.RD.TSR (R89). -/
  | muRdTsr
  /-- MU.RD.RSR (R90). -/
  | muRdRsr
  /-- MU.RD.RR, `n = OFF[3:2]` (R91). -/
  | muRdRr (n : BitVec 2)
  /-- MU.RD.ZERO, `o = OFF[11:2]` (R92). -/
  | muRdZero (o : BitVec 10)
  /-- MU.WR.TR, `n = OFF[4:2]` (R93, R94). -/
  | muWrTr (n : BitVec 3) (v : Word)
  /-- MU.WR.NOP, `o = OFF[11:2]` (R95). -/
  | muWrNop (o : BitVec 10) (v : Word)
  /-- SIM0.RD.STAT (R99). -/
  | sim0RdStat
  /-- SIM0.RD.GPR, pattern a, `i = OFF[3:2]`, offsets 0x10 to 0x1C (R100). -/
  | sim0RdGprA (i : BitVec 2)
  /-- SIM0.RD.GPR, pattern b, `i = OFF[3:2]`, offsets 0x20 to 0x2C (R100). -/
  | sim0RdGprB (i : BitVec 2)
  /-- SIM0.RD.GPR, pattern c, `i = OFF[2]`, offsets 0x30 to 0x34 (R100). -/
  | sim0RdGprC (i : BitVec 1)
  /-- SIM0.RD.ZERO, `o = OFF[11:2]` (R101). -/
  | sim0RdZero (o : BitVec 10)
  /-- SIM0.WR.GPR, pattern a (R102). -/
  | sim0WrGprA (i : BitVec 2) (v : Word)
  /-- SIM0.WR.GPR, pattern b (R102). -/
  | sim0WrGprB (i : BitVec 2) (v : Word)
  /-- SIM0.WR.GPR, pattern c (R102). -/
  | sim0WrGprC (i : BitVec 1) (v : Word)
  /-- SIM0.WR.NOP, `o = OFF[11:2]` (R103). -/
  | sim0WrNop (o : BitVec 10) (v : Word)
  /-- TSTMR.RD.LO (R106). -/
  | tstmrRdLo
  /-- TSTMR.RD.HI (R107). -/
  | tstmrRdHi
  /-- TSTMR.RD.ZERO, `o = OFF[9:2]` (R108). -/
  | tstmrRdZero (o : BitVec 8)
  /-- TSTMR.WR.NOP, `o = OFF[9:2]` (R109). -/
  | tstmrWrNop (o : BitVec 8) (v : Word)
deriving DecidableEq, Repr

end Sys2Proof
end

