-- ==== Sys2Proof/Config.lean ====
section
/-! DEFINITION. The implementation parameters of R7. The OPEN ones are constants with no body: nothing can be proved
about their values. P_SIM0_GPR_COUNT has the value the spec decided (D19); what depends on it takes it as an argument. -/

namespace Sys2Proof

/-- The two admitted values of P_SIM0_GPR_COUNT (R7, D19, C6). -/
inductive GprCount where
  | nine | ten
deriving DecidableEq, Repr

def GprCount.toNat : GprCount → Nat
  | .nine => 9
  | .ten => 10

/-- One triple `(source_fuse_index, source_length, destination_index)` of the FSB copy table, in words (R81, R82). -/
structure FsbEntry where
  src : Nat
  len : Nat
  dst : Nat
deriving DecidableEq, Repr

/-- P_BASE_FSB, P_BASE_MU, P_BASE_SIM0, P_BASE_TSTMR: guest addresses in bytes (R37). -/
structure Bases where
  fsb : Nat
  mu : Nat
  sim0 : Nat
  tstmr : Nat
deriving DecidableEq, Repr, Inhabited

namespace Config

/-- P_SIM0_GPR_COUNT (R7): decided 10 (D19, log entry 16: DESIGN CHOICE of the spec, unsafe at offset 0x34 only). -/
def gprCount : GprCount := .ten

/-- The fuse array handed to CONSTRUCT at reset, word by fuse position (R46, D20, log entry 13). -/
opaque fuseWord : Nat → Word

/-- P_FSB_MAP as handed to CONSTRUCT at reset, before the constraints of R82 are put on it (D8, log entry 13). -/
opaque rawFsbMap : List FsbEntry

/-- P_TSTMR_RESET (R29, D6, log entry 12). -/
opaque tstmrReset : Word

/-- P_SNAP_VERSION_FSB, _MU, _SIM0 and _TSTMR (R115, D18, log entry 17). -/
opaque snapVersion : Dev → Nat

/-- The base addresses, before the constraint of R37 is put on them (D3, log entry 18). -/
opaque rawBases : Bases

end Config

end Sys2Proof
end

