-- ==== Sys2Proof/WellFormed.lean ====
section
/-! DEFINITION. Which instructions are the reading of some transaction: a default row stands only for the offsets that
no earlier row of its device takes (R60 to R64), and pattern c of the SIM0 GPRs ends where P_SIM0_GPR_COUNT says (R63). -/

namespace Sys2Proof

/-- Byte offset of a word index taken from `OFF` (R56). -/
def byteOffset {n : Nat} (o : BitVec n) : Nat := 4 * o.toNat

/-- MU offsets with a read row of their own: 0x124, 0x12C, 0x280 to 0x28C (R62). -/
def muReadHandled (off : Nat) : Bool := off == 0x124 || off == 0x12C || (0x280 ≤ off && off ≤ 0x28C)

/-- MU offsets with a write row of their own: 0x200 to 0x21C (R62). -/
def muWriteHandled (off : Nat) : Bool := 0x200 ≤ off && off ≤ 0x21C

/-- SIM0 GPR offsets: `0x10 + 4k` for `k` below P_SIM0_GPR_COUNT (R27, R63). -/
def simGprOffset (c : GprCount) (off : Nat) : Bool := 0x10 ≤ off && off < 0x10 + 4 * c.toNat

/-- `i` is the reading of some transaction, when P_SIM0_GPR_COUNT is `c`. -/
def Instr.wellFormedWith (c : GprCount) : Instr → Bool
  | .fsbRd _ | .fsbRdZero _ | .fsbWr _ _ => true
  | .muRdTsr | .muRdRsr | .muRdRr _ | .muWrTr _ _ => true
  | .muRdZero o => !muReadHandled (byteOffset o)
  | .muWrNop o _ => !muWriteHandled (byteOffset o)
  | .sim0RdStat | .sim0RdGprA _ | .sim0RdGprB _ | .sim0WrGprA _ _ | .sim0WrGprB _ _ => true
  | .sim0RdGprC i | .sim0WrGprC i _ => 8 + i.toNat < c.toNat
  | .sim0RdZero o => byteOffset o != 0x8 && !simGprOffset c (byteOffset o)
  | .sim0WrNop o _ => !simGprOffset c (byteOffset o)
  | .tstmrRdLo | .tstmrRdHi | .tstmrWrNop _ _ => true
  | .tstmrRdZero o => byteOffset o != 0x0 && byteOffset o != 0x4

/-- Well-formed with the decided P_SIM0_GPR_COUNT (D19). -/
def Instr.wellFormed (i : Instr) : Bool := i.wellFormedWith Config.gprCount

end Sys2Proof
end

