-- ==== Sys2Proof/Decode.lean ====
section
/-! DEFINITION. The transaction encoding (R53 to R55), the decoder of R60 with the tables of R61 to R64 written row by
row, the assembler notation of R67, and after them the encoder. Decoding is total and refuses by name. -/

namespace Sys2Proof

/-! ## Header fields (R54, R55) -/

/-- Device select values (R55). -/
def Dev.code : Dev → BitVec 2
  | .fsb => 0b00
  | .mu => 0b01
  | .sim0 => 0b10
  | .tstmr => 0b11

/-- The device a `DEV` field selects (R55). -/
def Dev.ofCode (c : BitVec 2) : Dev :=
  if c = 0b00 then .fsb else if c = 0b01 then .mu else if c = 0b10 then .sim0 else .tstmr

/-- Window size in bytes (R6, R36). -/
def Dev.span : Dev → Nat
  | .fsb => 2048
  | .mu => 4096
  | .sim0 => 4096
  | .tstmr => 1024

/-- `DEV`, bits 15:14 (R54). -/
def headerDev (h : Header) : Dev := Dev.ofCode (h.extractLsb' 14 2)

/-- `W`, bit 13 (R54). -/
def headerW (h : Header) : Bool := h.getLsbD 13

/-- `R`, bit 12, reserved (R54). -/
def headerR (h : Header) : Bool := h.getLsbD 12

/-- `OFF`, bits 11:0 (R54). -/
def headerOff (h : Header) : Nat := (h.extractLsb' 0 12).toNat

/-- `H = (DEV << 14) | (W << 13) | OFF` (R54). `OFF` has 12 bits, and R67 does not bound the offset it names: of one of
0x1000 or more the low 12 bits are kept (log entry 35: DESIGN CHOICE; no claim may read the hardware as wrapping, N10). -/
def mkHeader (d : Dev) (w : Bool) (off : Nat) : Header :=
  (d.code.setWidth 16 <<< 14) ||| ((BitVec.ofBool w).setWidth 16 <<< 13) ||| (BitVec.ofNat 12 off).setWidth 16

/-- `RD <dev>, <off>` (R67); for an offset of 0x1000 or more see mkHeader (log entry 35). -/
def Transaction.rd (d : Dev) (off : Nat) : Transaction := ⟨mkHeader d false off, 4, 0⟩

/-- `WR <dev>, <off>, <data>` (R67); for an offset of 0x1000 or more see mkHeader (log entry 35). -/
def Transaction.wr (d : Dev) (off : Nat) (v : Word) : Transaction := ⟨mkHeader d true off, 4, v⟩

/-! ## The decode tables -/

/-- The decoder's refusals (R60). -/
inductive DecodeError where
  | badSize | reservedHeaderBit | misaligned | outOfWindow
deriving DecidableEq, Repr

/-- One row of a decode table: its mask, its match, and the instruction it builds from the header and `WDATA`. -/
structure Row where
  mask : Header
  value : Header
  build : Header → Word → Instr

/-- `(H & mask) == match` (R60). -/
def Row.hits (h : Header) (r : Row) : Bool := h &&& r.mask == r.value

/-- R61. -/
def fsbRows : List Row := [
  ⟨0xFC03, 0x0000, fun h _ => .fsbRd (h.extractLsb' 2 8)⟩,
  ⟨0xFC03, 0x0400, fun h _ => .fsbRdZero (h.extractLsb' 2 8)⟩,
  ⟨0xF803, 0x2000, fun h v => .fsbWr (h.extractLsb' 2 9) v⟩]

/-- R62. -/
def muRows : List Row := [
  ⟨0xFFFF, 0x4124, fun _ _ => .muRdTsr⟩,
  ⟨0xFFFF, 0x412C, fun _ _ => .muRdRsr⟩,
  ⟨0xFFF3, 0x4280, fun h _ => .muRdRr (h.extractLsb' 2 2)⟩,
  ⟨0xF003, 0x4000, fun h _ => .muRdZero (h.extractLsb' 2 10)⟩,
  ⟨0xFFE3, 0x6200, fun h v => .muWrTr (h.extractLsb' 2 3) v⟩,
  ⟨0xF003, 0x6000, fun h v => .muWrNop (h.extractLsb' 2 10) v⟩]

/-- The mask of pattern c: offsets 0x30 and 0x34 with ten GPRs, 0x30 alone with nine (R63). -/
def gprMaskC : GprCount → Header
  | .ten => 0xFFFB
  | .nine => 0xFFFF

/-- R63. -/
def simRows (c : GprCount) : List Row := [
  ⟨0xFFFF, 0x8008, fun _ _ => .sim0RdStat⟩,
  ⟨0xFFF3, 0x8010, fun h _ => .sim0RdGprA (h.extractLsb' 2 2)⟩,
  ⟨0xFFF3, 0x8020, fun h _ => .sim0RdGprB (h.extractLsb' 2 2)⟩,
  ⟨gprMaskC c, 0x8030, fun h _ => .sim0RdGprC (h.extractLsb' 2 1)⟩,
  ⟨0xF003, 0x8000, fun h _ => .sim0RdZero (h.extractLsb' 2 10)⟩,
  ⟨0xFFF3, 0xA010, fun h v => .sim0WrGprA (h.extractLsb' 2 2) v⟩,
  ⟨0xFFF3, 0xA020, fun h v => .sim0WrGprB (h.extractLsb' 2 2) v⟩,
  ⟨gprMaskC c, 0xA030, fun h v => .sim0WrGprC (h.extractLsb' 2 1) v⟩,
  ⟨0xF003, 0xA000, fun h v => .sim0WrNop (h.extractLsb' 2 10) v⟩]

/-- R64. -/
def tstmrRows : List Row := [
  ⟨0xFFFF, 0xC000, fun _ _ => .tstmrRdLo⟩,
  ⟨0xFFFF, 0xC004, fun _ _ => .tstmrRdHi⟩,
  ⟨0xFC03, 0xC000, fun h _ => .tstmrRdZero (h.extractLsb' 2 8)⟩,
  ⟨0xFC03, 0xE000, fun h v => .tstmrWrNop (h.extractLsb' 2 8) v⟩]

/-- The decode table of a device, in table order (R61 to R64). -/
def decodeTable (c : GprCount) : Dev → List Row
  | .fsb => fsbRows
  | .mu => muRows
  | .sim0 => simRows c
  | .tstmr => tstmrRows

/-! ## Decoding -/

/-- The refusal checks of R60, in the order given there. -/
def checkTransaction (t : Transaction) : Option DecodeError :=
  if t.size ≠ 4 then some .badSize
  else if headerR t.header then some .reservedHeaderBit
  else if t.header.extractLsb' 0 2 ≠ 0 then some .misaligned
  else if headerOff t.header ≥ (headerDev t.header).span then some .outOfWindow
  else none

/-- R60, with P_SIM0_GPR_COUNT as an argument. The last line is not reached: each table ends in a row that takes what
is left of its window (R71). -/
def decodeWith (c : GprCount) (t : Transaction) : Except DecodeError Instr :=
  match checkTransaction t with
  | some e => .error e
  | none =>
    match (decodeTable c (headerDev t.header)).find? (Row.hits t.header) with
    | some r => .ok (r.build t.header t.wdata)
    | none => .error .outOfWindow

/-- R60, with the decided P_SIM0_GPR_COUNT (D19). -/
def decode (t : Transaction) : Except DecodeError Instr := decodeWith Config.gprCount t

/-- The transaction whose bits are `w`, numbered as the opcode table numbers them: the header in bits 15:0, `WDATA` in
bits 47:16, every bit above `nbits` zero, `SZ = 4` (log entry 27). -/
def Transaction.ofTableWord (nbits w : Nat) : Transaction :=
  let b := w % 2 ^ nbits
  ⟨BitVec.ofNat 16 b, 4, BitVec.ofNat 32 (b >>> 16)⟩

/-- What the decoder reads from an instruction whose bits are `w`; none where it refuses. -/
def decodeTableWord (nbits w : Nat) : Option Instr :=
  match decode (Transaction.ofTableWord nbits w) with
  | .ok i => some i
  | .error _ => none

/-! ## Encoding -/

/-- The device an instruction addresses. -/
def Instr.dev : Instr → Dev
  | .fsbRd _ | .fsbRdZero _ | .fsbWr _ _ => .fsb
  | .muRdTsr | .muRdRsr | .muRdRr _ | .muRdZero _ | .muWrTr _ _ | .muWrNop _ _ => .mu
  | .sim0RdStat | .sim0RdGprA _ | .sim0RdGprB _ | .sim0RdGprC _ | .sim0RdZero _ => .sim0
  | .sim0WrGprA _ _ | .sim0WrGprB _ _ | .sim0WrGprC _ _ | .sim0WrNop _ _ => .sim0
  | .tstmrRdLo | .tstmrRdHi | .tstmrRdZero _ | .tstmrWrNop _ _ => .tstmr

/-- A field of the pattern laid at bit 2 of the header (R61 to R64: every index or ignored field starts there). -/
def fieldAt2 {n : Nat} (x : BitVec n) : Header := x.setWidth 16 <<< 2

/-- The header of an instruction: the match value of its row with its field filled in (R61 to R64). -/
def Instr.header : Instr → Header
  | .fsbRd i => 0x0000 ||| fieldAt2 i
  | .fsbRdZero o => 0x0400 ||| fieldAt2 o
  | .fsbWr o _ => 0x2000 ||| fieldAt2 o
  | .muRdTsr => 0x4124
  | .muRdRsr => 0x412C
  | .muRdRr n => 0x4280 ||| fieldAt2 n
  | .muRdZero o => 0x4000 ||| fieldAt2 o
  | .muWrTr n _ => 0x6200 ||| fieldAt2 n
  | .muWrNop o _ => 0x6000 ||| fieldAt2 o
  | .sim0RdStat => 0x8008
  | .sim0RdGprA i => 0x8010 ||| fieldAt2 i
  | .sim0RdGprB i => 0x8020 ||| fieldAt2 i
  | .sim0RdGprC i => 0x8030 ||| fieldAt2 i
  | .sim0RdZero o => 0x8000 ||| fieldAt2 o
  | .sim0WrGprA i _ => 0xA010 ||| fieldAt2 i
  | .sim0WrGprB i _ => 0xA020 ||| fieldAt2 i
  | .sim0WrGprC i _ => 0xA030 ||| fieldAt2 i
  | .sim0WrNop o _ => 0xA000 ||| fieldAt2 o
  | .tstmrRdLo => 0xC000
  | .tstmrRdHi => 0xC004
  | .tstmrRdZero o => 0xC000 ||| fieldAt2 o
  | .tstmrWrNop o _ => 0xE000 ||| fieldAt2 o

/-- `WDATA` of an instruction; a read has none and is encoded with 0 there (R53). -/
def Instr.wdata : Instr → Word
  | .fsbWr _ v | .muWrTr _ v | .muWrNop _ v => v
  | .sim0WrGprA _ v | .sim0WrGprB _ v | .sim0WrGprC _ v | .sim0WrNop _ v => v
  | .tstmrWrNop _ v => v
  | .fsbRd _ | .fsbRdZero _ | .muRdTsr | .muRdRsr | .muRdRr _ | .muRdZero _ => 0
  | .sim0RdStat | .sim0RdGprA _ | .sim0RdGprB _ | .sim0RdGprC _ | .sim0RdZero _ => 0
  | .tstmrRdLo | .tstmrRdHi | .tstmrRdZero _ => 0

/-- The transaction of an instruction. -/
def encode (i : Instr) : Transaction := ⟨i.header, 4, i.wdata⟩

end Sys2Proof
end

