-- ==== Sys2Proof/Machine/RegisterFile.lean ====
section
/-! DEFINITION. The Register File storage primitive of 40_register_file.md: `RF(n)`, RF_INIT, RF_READ, RF_WRITE, and the
whole-file transfer of R80. -/

namespace Sys2Proof.Machine

/-- `RF(n)`: a fixed number `n` of 32-bit cells (R73). -/
abbrev RF (n : Nat) := Vector Word n

/-- Backed offsets of an `RF(n)` (R73). -/
abbrev Backed (n off : Nat) : Prop := off % 4 = 0 ∧ off / 4 < n

/-- RF_INIT: every cell 0 (R76). -/
def rfInit (n : Nat) : RF n := Vector.replicate n 0

/-- RF_READ (R74). -/
def rfRead {n : Nat} (F : RF n) (off : Nat) : Word :=
  if h : Backed n off then F[off / 4]'h.2 else 0

/-- RF_WRITE (R75). -/
def rfWrite {n : Nat} (F : RF n) (off : Nat) (v : Word) : RF n :=
  if h : Backed n off then F.set (off / 4) v h.2 else F

/-- The cells named by `order`, as a list of words in that order (R80, R115). -/
def rfSave {n : Nat} (F : RF n) (order : List Nat) : List Word :=
  order.map fun i => rfRead F (4 * i)

/-- Assigns the words of a snapshot to the cells named by `order`, one after the other (R80, R116). -/
def rfRestore {n : Nat} (F : RF n) (order : List Nat) (ws : List Word) : RF n :=
  (order.zip ws).foldl (fun G p => rfWrite G (4 * p.1) p.2) F

end Sys2Proof.Machine
end

