-- ==== Sys2Proof/Machine/FsbLoad.lean ====
section
/-! DEFINITION. FSB.LOAD (R81), the constraints on its copy table (R82, R83), and the fuse array and table that the
block is constructed with at reset. -/

namespace Sys2Proof.Machine

/-- FUSE_WORDS (R6). -/
def fuseWords : Nat := 512

/-- FSB_WORDS (R6). -/
def fsbWords : Nat := 256

/-- R82 (2): source and destination inside the fuse array and the register file. -/
def entryInRange (e : FsbEntry) : Bool := e.src + e.len ≤ fuseWords && e.dst + e.len ≤ fsbWords

/-- R82 (3) for two entries: their destination ranges have no cell in common. They may be adjacent: the source's
"non-contiguous offsets", which R82 (3) quotes, is not taken to bar that (log entry 36: DESIGN CHOICE). -/
def entriesDisjoint (e f : FsbEntry) : Bool := e.dst + e.len ≤ f.dst || f.dst + f.len ≤ e.dst

/-- R82 (3): pairwise disjoint destinations. -/
def destinationsDisjoint : List FsbEntry → Bool
  | [] => true
  | e :: es => es.all (entriesDisjoint e) && destinationsDisjoint es

/-- R82 (1): six entries, four of 8 words, one of 32, one of 64, in any order (log entry 15). Only the lengths are checked:
whether the source of a "bank" region must be a whole bank of R46, at a multiple of 8, is left open, and any is admitted (log
entry 37: DESIGN CHOICE). -/
def regionSizesOk (m : List FsbEntry) : Bool :=
  m.length == 6 && (m.filter (·.len == 8)).length == 4 && (m.filter (·.len == 32)).length == 1 &&
    (m.filter (·.len == 64)).length == 1

/-- The entry copies fuse position `p` to FSB cell `c`. -/
def copies (e : FsbEntry) (p c : Nat) : Bool := e.src ≤ p && p < e.src + e.len && c + e.src == e.dst + p

/-- R82 (4): the mappings pinned by R83: (a) the entry `(24, 8, 0)`; (b) and (c) fuse positions 296 to 303 at cells 96 to
103 (for (c) see log entry 14). -/
def pinnedMappings (m : List FsbEntry) : Bool :=
  m.contains ⟨24, 8, 0⟩ && (List.range 8).all fun k => m.any fun e => copies e (296 + k) (96 + k)

/-- R82; adjacent destination ranges are admitted (log entry 36: DESIGN CHOICE). -/
def fsbMapOk (m : List FsbEntry) : Bool :=
  regionSizesOk m && m.all entryInRange && destinationsDisjoint m && pinnedMappings m

/-- Copies the last `k` words of an entry, word `len - k` first (the inner loop of R81). -/
def copyWords (fuse : List Word) (e : FsbEntry) : Nat → RF 256 → RF 256
  | 0, F => F
  | k + 1, F =>
    copyWords fuse e k
      (rfWrite F (4 * (e.dst + (e.len - (k + 1)))) (fuse.getD (e.src + (e.len - (k + 1))) 0))

/-- FSB.LOAD: every cell 0, then each entry in table order (R81). -/
def fsbLoad (fuse : List Word) (m : List FsbEntry) : RF 256 :=
  m.foldl (fun F e => copyWords fuse e e.len F) (rfInit 256)

/-- `fuse_in` at reset: 512 words, none of them known (R7, R46). -/
def bootFuse : List Word := (List.range fuseWords).map Config.fuseWord

/-- P_FSB_MAP at reset: any table that R82 admits. Where the raw constant breaks R82, a table that meets it stands in
for it, so that the constraints hold and nothing more is known (log entry 13). -/
def bootFsbMap : List FsbEntry :=
  if fsbMapOk Config.rawFsbMap then Config.rawFsbMap
  else [⟨24, 8, 0⟩, ⟨296, 8, 96⟩, ⟨0, 8, 8⟩, ⟨8, 8, 16⟩, ⟨32, 32, 32⟩, ⟨64, 64, 128⟩]

end Sys2Proof.Machine
end

