-- ==== Sys2Proof/Machine/State.lean ====
section
/-! DEFINITION. The state of the block (R14) with what the model adds to it: whether the block is constructed (R126,
R140), the operations the bus master and the host issue next (R17), the firmware that issues the ones after them (R146,
R149), and the outcome of the last one (R11). Its reset is the state right after CONSTRUCT (R34, R138). -/

namespace Sys2Proof.Machine

/-- Host-visible events (R32, R121). -/
inductive Event where
  /-- E0: a handled MU transmit write whose identifier is not 0xC7 (R93). -/
  | muCmd (id : BitVec 8)
deriving DecidableEq, Repr

/-- A snapshot: version tag and field words (R115). -/
structure Blob where
  tag : Nat
  fields : List Word
deriving DecidableEq, Repr

/-- What the bus master asks for at a guest address (R36, R50). -/
inductive AccessKind where
  | read | write | fetch
deriving DecidableEq, Repr

/-- An access of the bus master before the bus has routed it (R37, R55). -/
structure GuestAccess where
  addr : Nat
  kind : AccessKind
  size : Nat
  wdata : Word
deriving DecidableEq, Repr

/-- One operation on a block in a run, by the bus master or the host (R10). CONSTRUCT is none: it starts the run (R112,
R140). -/
inductive Request where
  /-- A bus transaction, as the bus delivers it (R53). -/
  | bus (t : Transaction)
  /-- A guest access by address, which the bus routes (R55). -/
  | guest (a : GuestAccess)
  /-- An instruction fetch from a device's window (R50), at any offset (log entry 34). -/
  | fetch (d : Dev) (off : Nat)
  /-- `SAVE(dev)` (R115). -/
  | save (d : Dev)
  /-- `RESTORE(dev, blob)` (R116). -/
  | restore (d : Dev) (b : Blob)
deriving DecidableEq, Repr

/-- The operands of `CONSTRUCT(fuse_in)` and the parameters it reads (R112). -/
structure Launch where
  fuse : List Word
  map : List FsbEntry
  tsReset : Word
deriving DecidableEq, Repr

/-- Where the block stands with its construction. It takes place once in a run (R140): a constructed block has no place
for another one (log entry 8). -/
inductive Construction where
  /-- No device exists yet (R126); `some l` once the host has called for CONSTRUCT with `l`. -/
  | before (launch : Option Launch)
  /-- CONSTRUCT has taken place. -/
  | done
deriving DecidableEq, Repr

/-- One line of the bus master's firmware: a transaction, and the line that follows for what it is answered. A word `w`
read passes the line's test when `w &&& mask = value`. The model's own form of a program (log entry 33). -/
structure Line where
  op : Transaction
  mask : Word
  value : Word
  /-- The next line when the test is passed, and after a write. -/
  hit : Nat
  /-- The next line when it is not. -/
  miss : Nat
deriving DecidableEq, Repr

/-- The bus master's firmware and the line it is at; past the last line it has ended (R146, R149, log entry 33). -/
structure Firmware where
  lines : List Line
  pos : Nat
deriving DecidableEq, Repr

/-- The outcome of the last operation as its issuer sees it (R11, R118). The model's own field (log entry 3). -/
inductive Response where
  /-- No operation has completed: the block before CONSTRUCT. -/
  | none
  /-- A read completed with this `RDATA` (R53). -/
  | rdata (w : Word)
  /-- A write completed (R11). -/
  | written
  /-- `Halted(id)` (R11, R121). -/
  | halted (id : BitVec 8)
  /-- CONSTRUCT completed (R112). -/
  | constructed
  /-- SAVE completed with this blob (R115). -/
  | saved (b : Blob)
  /-- RESTORE completed (R116). -/
  | restored
deriving DecidableEq, Repr

/-- The Timestamp Counter (R14, R29, R30). -/
structure Timestamp where
  low : Word
  high : Word
deriving DecidableEq, Repr

/-- The state of the block. -/
structure State where
  /-- Fuse Shadow Bank store (R19). -/
  fsb : RF 256
  /-- Secure Mailbox register file, laid out by R20. -/
  mu : RF 256
  /-- Domain Control Block register file (R25). -/
  sim : RF 44
  /-- Timestamp Counter (R29, R30). -/
  ts : Timestamp
  /-- Set by the MU system-reset command (R31). -/
  halted : Bool
  /-- Host-visible events, oldest first (R32). -/
  log : List Event
  /-- Whether CONSTRUCT has taken place (R126, R140). -/
  construction : Construction
  /-- The operations issued next, the first one first (R17, R47). -/
  pending : List Request
  /-- What the bus master issues after them, by what it reads (R146, R149). -/
  firmware : Firmware
  /-- The outcome of the last operation (R11). -/
  resp : Response
deriving DecidableEq, Repr

/-- CONSTRUCT has taken place: the devices exist (R126). -/
def State.constructed (s : State) : Bool := s.construction == .done

/-- The CONSTRUCT the host has called for and that has not taken place yet, if any (R140). -/
def State.launch (s : State) : Option Launch :=
  match s.construction with
  | .before l => l
  | .done => none

/-- Why the machine stops. The hardware itself signals no fault (R120). -/
inductive Fault where
  /-- Raised by the step and by every operation in a halted state: the run is over, with the final outcome
  `Halted(0xC7)`, and no agent has a step (R122). It stands for "no step" and is safe (log entry 4). -/
  | runOver
deriving DecidableEq, Repr

/-- Why the model gives an operation no meaning: the closed list of R124, with the host's own notModelled before it. -/
inductive Refusal where
  /-- The host's name for an arm of `exec` without a meaning; safe. No arm is one, so nothing raises it. -/
  | notModelled (mnemonic : String)
  /-- Raised by decoding when `SZ` is not 4 (R39); safe. -/
  | badSize
  /-- Raised by decoding when `H[12] = 1` (R65); safe. -/
  | reservedHeaderBit
  /-- Raised by decoding when `OFF[1:0]` is not 0 (R40); safe. -/
  | misaligned
  /-- Raised by decoding when `OFF` is not below the window size (R38); safe. -/
  | outOfWindow
  /-- Raised by an instruction fetch from a window of the block (R50); safe. -/
  | fetchFromDevice
  /-- Raised by a transaction, SAVE or RESTORE before CONSTRUCT (R126); safe. -/
  | notConstructed
  /-- Raised by CONSTRUCT with a fuse array not of 512 words (R112); safe. -/
  | badConstruct
  /-- Raised by CONSTRUCT with a copy table that breaks R82 (R81); safe. -/
  | badFsbMap
  /-- Raised by RESTORE with a wrong tag or word count (R116); safe. -/
  | badSnapshot
deriving DecidableEq, Repr

/-- What an operation answers. -/
abbrev Result := Host.Outcome State Fault Refusal

/-- The block before CONSTRUCT: no device exists yet (R126); the cells' values here are read by no operation. -/
def State.unbuilt : State where
  fsb := rfInit 256
  mu := rfInit 256
  sim := rfInit 44
  ts := ⟨0, 0⟩
  halted := false
  log := []
  construction := .before none
  pending := []
  firmware := ⟨[], 0⟩
  resp := .none

/-- Right after reset, which is CONSTRUCT with the launch inputs of Config (R34, R138, R139). -/
def State.reset : State where
  fsb := fsbLoad bootFuse bootFsbMap
  mu := rfInit 256
  sim := rfInit 44
  ts := ⟨Config.tstmrReset, 0⟩
  halted := false
  log := []
  construction := .done
  pending := []
  firmware := ⟨[], 0⟩
  resp := .constructed

end Sys2Proof.Machine
end

