-- ==== Sys2Proof/Machine/Flags.lean ====
section
/-! DEFINITION. The block has no flags or condition codes (R18). What it calls status words are constants of the read
decoder (R23, R26), and they stand here with the constant of the offsets that read zero (R41, R30). -/

namespace Sys2Proof.Machine

/-- MU transmit status, MU receive status and SIM0 status as a read returns them (R23, R26). -/
def statusWord : Word := allOnes

/-- What an offset with no state behind it returns (R41), and TSTMR offset 4 (R30). -/
def zeroWord : Word := 0

end Sys2Proof.Machine
end

