-- ==== Sys2Proof/Machine/Operands.lean ====
section
/-! DEFINITION. Operand assembly (R56, R57): the byte offset each operation hands to the Register File, and the command
identifier field. -/

namespace Sys2Proof.Machine

/-- FSB.RD: offset of FSB word `i` (R56). -/
def fsbOffset (i : BitVec 8) : Nat := 4 * i.toNat

/-- Offset of receive word `n` (R56). -/
def rrOffset (n : Nat) : Nat := 0x280 + 4 * n

/-- Offset of transmit word `n` (R56). -/
def trOffset (n : Nat) : Nat := 0x200 + 4 * n

/-- Offset of GPR `k` (R27, R56). -/
def gprOffset (k : Nat) : Nat := 0x10 + 4 * k

/-- GPR number of pattern a (R63). -/
def gprIndexA (i : BitVec 2) : Nat := i.toNat

/-- GPR number of pattern b (R63). -/
def gprIndexB (i : BitVec 2) : Nat := 4 + i.toNat

/-- GPR number of pattern c (R63). -/
def gprIndexC (i : BitVec 1) : Nat := 8 + i.toNat

/-- The command identifier of a transmit word, `(tr[0] >> 16) & 0xFF` (R57). -/
def cmdId (w : Word) : BitVec 8 := ((w >>> 16) &&& 0xFF).setWidth 8

/-- CMD_SYSTEM_RESET (R6, R58). -/
def cmdSystemReset : BitVec 8 := 0xC7

/-- The command identifier held by a mailbox: that of its stored transmit word 0 (R57). -/
def muCommand (mu : RF 256) : BitVec 8 := cmdId (rfRead mu (trOffset 0))

end Sys2Proof.Machine
end

