-- ==== Sys2Proof/Machine/Ops.lean ====
section
/-! DEFINITION. The named operations over State that the meanings share: one update for each field, the two guards (R122,
R126), the completion of a read and of a write (R11), the device register accesses (R84, R91, R93, R100, R102, R106), the
entry into the halt (R94, R123), and the routing of a guest address (R37, R55). -/

namespace Sys2Proof.Machine

/-! ## Field updates -/

def State.setFsb (s : State) (F : RF 256) : State := { s with fsb := F }
def State.setMu (s : State) (F : RF 256) : State := { s with mu := F }
def State.setSim (s : State) (F : RF 44) : State := { s with sim := F }
def State.setTs (s : State) (t : Timestamp) : State := { s with ts := t }
def State.setHalted (s : State) (b : Bool) : State := { s with halted := b }
def State.setPending (s : State) (rs : List Request) : State := { s with pending := rs }
def State.setFirmware (s : State) (f : Firmware) : State := { s with firmware := f }
def State.setConstruction (s : State) (c : Construction) : State := { s with construction := c }
def State.setResp (s : State) (r : Response) : State := { s with resp := r }

/-- `emit E` (R9): the event joins the log as its newest entry (R32). -/
def State.emit (s : State) (e : Event) : State := { s with log := s.log ++ [e] }

/-! ## Guards -/

/-- The block is constructed and has not halted: transactions and snapshot operations have a step (R31, R126). -/
abbrev State.Live (s : State) : Prop := s.halted = false ∧ s.constructed = true

/-- The next step is an operation of the trace: no halt (R122), and no CONSTRUCT that comes first (R140). -/
abbrev State.Ready (s : State) : Prop := s.halted = false ∧ s.launch = none

/-- Nothing has a step from a halted state (R122). -/
def unlessHalted (s : State) (k : Result) : Result :=
  if s.halted then .fault .runOver else k

/-- An operation of a device: none in a halted state (R122), refused before CONSTRUCT (R126). -/
def onLive (s : State) (k : Result) : Result :=
  unlessHalted s (if s.constructed then k else .refused .notConstructed)

/-! ## Completion -/

/-- `return w`: a read completes with `RDATA = w` (R9). -/
def completeRead (s : State) (w : Word) : Result := .next (s.setResp (.rdata w))

/-- A write completes (R11). -/
def completeWrite (s : State) : Result := .next (s.setResp .written)

/-- A write that is dropped: it completes with no other effect (R13). -/
def dropWrite (s : State) : Result := completeWrite s

/-! ## Device registers -/

/-- Read of the FSB register file (R84, R85). -/
def readFsb (off : Nat) (s : State) : Result := completeRead s (rfRead s.fsb off)

/-- Read of receive word `n` (R91). -/
def readRr (n : Nat) (s : State) : Result := completeRead s (rfRead s.mu (rrOffset n))

/-- Read of SIM0 GPR `k` (R100). -/
def readGpr (k : Nat) (s : State) : Result := completeRead s (rfRead s.sim (gprOffset k))

/-- Write of SIM0 GPR `k` (R102). -/
def writeGpr (k : Nat) (v : Word) (s : State) : Result :=
  completeWrite (s.setSim (rfWrite s.sim (gprOffset k) v))

/-- One tick of the counter: the low word modulo 2^32, no carry (R106, D7). -/
def tick (t : Timestamp) : Timestamp := { t with low := t.low + 1 }

/-- Read of the counter's low word, then its increment (R106). -/
def readCounter (s : State) : Result := completeRead (s.setTs (tick s.ts)) s.ts.low

/-! ## The halt -/

/-- Halt entry: `halted` is set and the outcome is `Halted(0xC7)`; nothing else changes, nothing is flushed, and control
goes nowhere (R94, R123). -/
def enterHalt (s : State) : Result :=
  .next ((s.setHalted true).setResp (.halted cmdSystemReset))

/-- The command decode after a handled transmit write, on the mailbox as it now stands (R93, R94). -/
def decodeCommand (s : State) : Result :=
  if muCommand s.mu = cmdSystemReset then enterHalt s
  else completeWrite (s.emit (.muCmd (muCommand s.mu)))

/-- Store of transmit word `n`, then the command decode (R93, D25). -/
def transmit (n : Nat) (v : Word) (s : State) : Result :=
  decodeCommand (s.setMu (rfWrite s.mu (trOffset n) v))

/-! ## Guest addresses -/

/-- The base of a device's window (R37). -/
def Bases.of (b : Bases) : Dev → Nat
  | .fsb => b.fsb
  | .mu => b.mu
  | .sim0 => b.sim0
  | .tstmr => b.tstmr

/-- Guest address `a` lies in the window of `d` (R36). -/
def inWindow (b : Bases) (d : Dev) (a : Nat) : Bool :=
  Bases.of b d ≤ a && a < Bases.of b d + d.span

/-- The windows of two devices have no address in common (R37). -/
def windowsApart (b : Bases) (d e : Dev) : Bool :=
  Bases.of b d + d.span ≤ Bases.of b e || Bases.of b e + e.span ≤ Bases.of b d

/-- No two windows overlap (R37). -/
def basesOk (b : Bases) : Bool :=
  windowsApart b .fsb .mu && windowsApart b .fsb .sim0 && windowsApart b .fsb .tstmr &&
    windowsApart b .mu .sim0 && windowsApart b .mu .tstmr && windowsApart b .sim0 .tstmr

/-- The bases of this block: any that R37 admits. Where the raw constant breaks R37, bases that meet it stand in for it
(log entry 18). -/
def systemBases : Bases :=
  if basesOk Config.rawBases then Config.rawBases else ⟨0x3000, 0x0000, 0x1000, 0x2000⟩

/-- The device and the offset that the bus computes from a guest address; none outside the four windows (R55). -/
def route (b : Bases) (a : Nat) : Option (Dev × Nat) :=
  ([Dev.fsb, Dev.mu, Dev.sim0, Dev.tstmr].find? (inWindow b · a)).map fun d => (d, a - Bases.of b d)

end Sys2Proof.Machine
end

