-- ==== Sys2Proof/Machine/Fsb.lean ====
section
/-! DEFINITION. The Fuse Shadow Bank's transactions (41_fuse_shadow_bank.md). -/

namespace Sys2Proof.Machine

/-- FSB.RD (R84). -/
def execFsbRd (i : BitVec 8) (s : State) : Result := onLive s (readFsb (fsbOffset i) s)

/-- FSB.RD.ZERO (R85). -/
def execFsbRdZero (_o : BitVec 8) (s : State) : Result := onLive s (completeRead s zeroWord)

/-- FSB.WR: dropped, `WDATA` ignored (R86). -/
def execFsbWr (_o : BitVec 9) (_v : Word) (s : State) : Result := onLive s (dropWrite s)

end Sys2Proof.Machine
end

