-- ==== Sys2Proof/Machine/Mu.lean ====
section
/-! DEFINITION. The Secure Mailbox's transactions (42_secure_mailbox.md). -/

namespace Sys2Proof.Machine

/-- MU.RD.TSR: all-ones whatever the stored cell holds (R89). -/
def execMuRdTsr (s : State) : Result := onLive s (completeRead s statusWord)

/-- MU.RD.RSR: all-ones whatever the stored cell holds (R90). -/
def execMuRdRsr (s : State) : Result := onLive s (completeRead s statusWord)

/-- MU.RD.RR (R91). -/
def execMuRdRr (n : BitVec 2) (s : State) : Result := onLive s (readRr n.toNat s)

/-- MU.RD.ZERO (R92). -/
def execMuRdZero (_o : BitVec 10) (s : State) : Result := onLive s (completeRead s zeroWord)

/-- MU.WR.TR: store, then command decode (R93, R94). -/
def execMuWrTr (n : BitVec 3) (v : Word) (s : State) : Result := onLive s (transmit n.toNat v s)

/-- MU.WR.NOP: dropped, `WDATA` ignored, no decode, no log (R95). -/
def execMuWrNop (_o : BitVec 10) (_v : Word) (s : State) : Result := onLive s (dropWrite s)

end Sys2Proof.Machine
end

