-- ==== Sys2Proof/Machine/Sim0.lean ====
section
/-! DEFINITION. The Domain Control Block's transactions (43_domain_control_block.md). -/

namespace Sys2Proof.Machine

/-- SIM0.RD.STAT: all-ones whatever the stored cell holds (R99). -/
def execSim0RdStat (s : State) : Result := onLive s (completeRead s statusWord)

/-- SIM0.RD.GPR, pattern a: GPRs 0 to 3 (R100). -/
def execSim0RdGprA (i : BitVec 2) (s : State) : Result := onLive s (readGpr (gprIndexA i) s)

/-- SIM0.RD.GPR, pattern b: GPRs 4 to 7 (R100). -/
def execSim0RdGprB (i : BitVec 2) (s : State) : Result := onLive s (readGpr (gprIndexB i) s)

/-- SIM0.RD.GPR, pattern c: GPRs 8 and 9 (R100). -/
def execSim0RdGprC (i : BitVec 1) (s : State) : Result := onLive s (readGpr (gprIndexC i) s)

/-- SIM0.RD.ZERO (R101). -/
def execSim0RdZero (_o : BitVec 10) (s : State) : Result := onLive s (completeRead s zeroWord)

/-- SIM0.WR.GPR, pattern a: GPRs 0 to 3 (R102). -/
def execSim0WrGprA (i : BitVec 2) (v : Word) (s : State) : Result := onLive s (writeGpr (gprIndexA i) v s)

/-- SIM0.WR.GPR, pattern b: GPRs 4 to 7 (R102). -/
def execSim0WrGprB (i : BitVec 2) (v : Word) (s : State) : Result := onLive s (writeGpr (gprIndexB i) v s)

/-- SIM0.WR.GPR, pattern c: GPRs 8 and 9 (R102). -/
def execSim0WrGprC (i : BitVec 1) (v : Word) (s : State) : Result := onLive s (writeGpr (gprIndexC i) v s)

/-- SIM0.WR.NOP: dropped, `WDATA` ignored (R103). -/
def execSim0WrNop (_o : BitVec 10) (_v : Word) (s : State) : Result := onLive s (dropWrite s)

end Sys2Proof.Machine
end

