-- ==== Sys2Proof/Machine/Tstmr.lean ====
section
/-! DEFINITION. The Free-Running Timestamp Counter's transactions (44_timestamp_counter.md). -/

namespace Sys2Proof.Machine

/-- TSTMR.RD.LO: the low word before the increment (R106). -/
def execTstmrRdLo (s : State) : Result := onLive s (readCounter s)

/-- TSTMR.RD.HI: the constant 0, whatever `ts.high` holds (R30, R107). -/
def execTstmrRdHi (s : State) : Result := onLive s (completeRead s zeroWord)

/-- TSTMR.RD.ZERO (R108). -/
def execTstmrRdZero (_o : BitVec 8) (s : State) : Result := onLive s (completeRead s zeroWord)

/-- TSTMR.WR.NOP: dropped, `WDATA` ignored (R109, D21). -/
def execTstmrWrNop (_o : BitVec 8) (_v : Word) (s : State) : Result := onLive s (dropWrite s)

end Sys2Proof.Machine
end

