-- ==== Sys2Proof/Machine/Dispatch.lean ====
section
/-! DEFINITION. One arm for each instruction, each a direct call of its meaning. -/

namespace Sys2Proof.Machine

def exec (i : Instr) (s : State) : Host.Outcome State Fault Refusal :=
  match i with
  | .fsbRd k => Sys2Proof.Machine.execFsbRd k s
  | .fsbRdZero o => Sys2Proof.Machine.execFsbRdZero o s
  | .fsbWr o v => Sys2Proof.Machine.execFsbWr o v s
  | .muRdTsr => Sys2Proof.Machine.execMuRdTsr s
  | .muRdRsr => Sys2Proof.Machine.execMuRdRsr s
  | .muRdRr n => Sys2Proof.Machine.execMuRdRr n s
  | .muRdZero o => Sys2Proof.Machine.execMuRdZero o s
  | .muWrTr n v => Sys2Proof.Machine.execMuWrTr n v s
  | .muWrNop o v => Sys2Proof.Machine.execMuWrNop o v s
  | .sim0RdStat => Sys2Proof.Machine.execSim0RdStat s
  | .sim0RdGprA k => Sys2Proof.Machine.execSim0RdGprA k s
  | .sim0RdGprB k => Sys2Proof.Machine.execSim0RdGprB k s
  | .sim0RdGprC k => Sys2Proof.Machine.execSim0RdGprC k s
  | .sim0RdZero o => Sys2Proof.Machine.execSim0RdZero o s
  | .sim0WrGprA k v => Sys2Proof.Machine.execSim0WrGprA k v s
  | .sim0WrGprB k v => Sys2Proof.Machine.execSim0WrGprB k v s
  | .sim0WrGprC k v => Sys2Proof.Machine.execSim0WrGprC k v s
  | .sim0WrNop o v => Sys2Proof.Machine.execSim0WrNop o v s
  | .tstmrRdLo => Sys2Proof.Machine.execTstmrRdLo s
  | .tstmrRdHi => Sys2Proof.Machine.execTstmrRdHi s
  | .tstmrRdZero o => Sys2Proof.Machine.execTstmrRdZero o s
  | .tstmrWrNop o v => Sys2Proof.Machine.execTstmrWrNop o v s

end Sys2Proof.Machine
end

