-- ==== Sys2Proof/Machine/HostOps.lean ====
section
/-! DEFINITION. The host operations of 45_host_operations.md: CONSTRUCT, SAVE, RESTORE, with the layout of the Secure
Mailbox (R20) in whose declared order its fields are saved. -/

namespace Sys2Proof.Machine

/-! ## The Secure Mailbox's layout -/

/-- The fields of R20, in the declared order. -/
inductive MuField where
  | ver | par | cr | sr | rsv0 | tcr | tsr | rcr | rsr | rsv1 | tr | rsv2 | rr | rsv3 | attr
deriving DecidableEq, Repr

/-- The declared order (R20, R115). -/
def muLayout : List MuField :=
  [.ver, .par, .cr, .sr, .rsv0, .tcr, .tsr, .rcr, .rsr, .rsv1, .tr, .rsv2, .rr, .rsv3, .attr]

/-- Byte offset of a field's first word (R20). -/
def muFieldOffset : MuField → Nat
  | .ver => 0x000
  | .par => 0x004
  | .cr => 0x008
  | .sr => 0x00C
  | .rsv0 => 0x010
  | .tcr => 0x120
  | .tsr => 0x124
  | .rcr => 0x128
  | .rsr => 0x12C
  | .rsv1 => 0x130
  | .tr => 0x200
  | .rsv2 => 0x240
  | .rr => 0x280
  | .rsv3 => 0x2C0
  | .attr => 0x2F8

/-- Number of words of a field (R20). -/
def muFieldWords : MuField → Nat
  | .rsv0 => 68
  | .rsv1 => 52
  | .tr => 16
  | .rsv2 => 16
  | .rr => 16
  | .rsv3 => 14
  | .ver | .par | .cr | .sr | .tcr | .tsr | .rcr | .rsr | .attr => 1

/-- Word `j` of a named MU field (R20): `muWord s .tr 0` is `mu.tr[0]`. -/
def muWord (s : State) (f : MuField) (j : Nat) : Word := rfRead s.mu (muFieldOffset f + 4 * j)

/-! ## Snapshot fields -/

/-- The cells a device's snapshot carries, in its order, for the devices with an indexed register file (R80, R115). -/
def muOrder : List Nat :=
  muLayout.flatMap fun f => (List.range (muFieldWords f)).map (muFieldOffset f / 4 + ·)

/-- `words(dev)` (R115, R116). -/
def snapWords : Dev → Nat
  | .fsb => 256
  | .mu => 191
  | .sim0 => 44
  | .tstmr => 2

/-- The field list of `SAVE(dev)` (R115). -/
def saveFields (d : Dev) (s : State) : List Word :=
  match d with
  | .fsb => rfSave s.fsb (List.range 256)
  | .mu => rfSave s.mu muOrder
  | .sim0 => rfSave s.sim (List.range 44)
  | .tstmr => [s.ts.low, s.ts.high]

/-- Assigns a field list to a device, in the order of R115 (R116). -/
def assignFields (d : Dev) (ws : List Word) (s : State) : State :=
  match d with
  | .fsb => s.setFsb (rfRestore s.fsb (List.range 256) ws)
  | .mu => s.setMu (rfRestore s.mu muOrder ws)
  | .sim0 => s.setSim (rfRestore s.sim (List.range 44) ws)
  | .tstmr => s.setTs ⟨ws.getD 0 0, ws.getD 1 0⟩

/-! ## The operations -/

/-- The state CONSTRUCT leaves (R112); what is still to come of the trace is the issuers' and stays. -/
def built (l : Launch) (s : State) : State where
  fsb := fsbLoad l.fuse l.map
  mu := rfInit 256
  sim := rfInit 44
  ts := ⟨l.tsReset, 0⟩
  halted := false
  log := []
  construction := .done
  pending := s.pending
  firmware := s.firmware
  resp := .constructed

/-- CONSTRUCT (R112), of a block that is not constructed; the fuse array is checked before the table (log entry 9). -/
def opConstruct (l : Launch) (s : State) : Result :=
  if l.fuse.length ≠ fuseWords then .refused .badConstruct
  else if fsbMapOk l.map = false then .refused .badFsbMap
  else .next (built l s)

/-- SAVE (R115): the answer is the blob; no state of the block changes. -/
def opSave (d : Dev) (s : State) : Result :=
  onLive s (.next (s.setResp (.saved ⟨Config.snapVersion d, saveFields d s⟩)))

/-- RESTORE (R116): no event and no command decode. Before CONSTRUCT it is refused NotConstructed, a bad blob too: the
order of the two refusals is the model's choice (log entry 7: DESIGN CHOICE). -/
def opRestore (d : Dev) (b : Blob) (s : State) : Result :=
  onLive s
    (if b.tag ≠ Config.snapVersion d ∨ b.fields.length ≠ snapWords d then .refused .badSnapshot
     else .next ((assignFields d b.fields s).setResp .restored))

end Sys2Proof.Machine
end

