-- ==== Sys2Proof/Machine/Bus.lean ====
section
/-! DEFINITION. How the block meets one operation: a transaction is decoded (R60) and its instruction executed; a guest
access is routed (R55); a fetch is refused (R50); a host operation is performed. And which one comes next: CONSTRUCT
before the first (R140), then the operations issued, then the bus master's firmware (R146, R149). -/

namespace Sys2Proof.Machine

/-- A refusal of the decoder as a refusal of the machine (R124). -/
def decodeRefusal : DecodeError → Refusal
  | .badSize => .badSize
  | .reservedHeaderBit => .reservedHeaderBit
  | .misaligned => .misaligned
  | .outOfWindow => .outOfWindow

/-- A bus transaction: the refusal checks, then the device rule (R128). NotConstructed comes first, since no device is
there to decode for (R126, log entry 7). -/
def busTransaction (t : Transaction) (s : State) : Result :=
  onLive s
    (match decode t with
     | .ok i => exec i s
     | .error e => .refused (decodeRefusal e))

/-- An instruction fetch from any window of the block (R50). The offset is not looked at: a fetch handed to the model at
or past the end of the window has the same refusal, where R38 gives OutOfWindow to transactions only (log entry 34: DESIGN
CHOICE); so has one before CONSTRUCT (log entry 7). -/
def fetchFromWindow (s : State) : Result := unlessHalted s (.refused .fetchFromDevice)

/-- A guest access: inside a window it is the transaction, or the fetch, the bus makes of it (R50, R55); outside the four
windows the bus does not deliver it to the block, and the block's state stays (log entry 18). -/
def guestAccess (b : Bases) (a : GuestAccess) (s : State) : Result :=
  unlessHalted s
    (match route b a.addr with
     | none => .next s
     | some (d, off) =>
       match a.kind with
       | .fetch => fetchFromWindow s
       | .read => busTransaction ⟨mkHeader d false off, a.size, 0⟩ s
       | .write => busTransaction ⟨mkHeader d true off, a.size, a.wdata⟩ s)

/-- One operation on the block. A fetch's offset decides nothing (log entry 34: DESIGN CHOICE). -/
def perform (r : Request) (s : State) : Result :=
  match r with
  | .bus t => busTransaction t s
  | .guest a => guestAccess systemBases a s
  | .fetch _ _ => fetchFromWindow s
  | .save d => opSave d s
  | .restore d b => opRestore d b s

/-! ## What comes next -/

/-- The line the firmware issues next; none once it has ended. -/
def Firmware.current (f : Firmware) : Option Line := f.lines[f.pos]?

/-- The line that follows `l` when its transaction was answered `r`: `hit` where the word read passes the test, else
`miss`; `hit` after a write (log entry 33). -/
def Line.target (l : Line) (r : Response) : Nat :=
  match r with
  | .rdata w => if w &&& l.mask = l.value then l.hit else l.miss
  | .none | .written | .halted _ | .constructed | .saved _ | .restored => l.hit

/-- The firmware goes on from line `l` by the answer it got. -/
def advance (l : Line) (t : State) : State :=
  t.setFirmware { t.firmware with pos := l.target t.resp }

/-- Line `l` after its transaction ended in `o`. -/
def afterLine (l : Line) (o : Result) : Result :=
  match o with
  | .next t => .next (advance l t)
  | .fault r => .fault r
  | .refused r => .refused r

/-- The bus master issues its firmware's line; with the firmware ended nothing is issued and nothing happens (R10, log
entry 1). -/
def runFirmware (s : State) : Result :=
  match s.firmware.current with
  | none => .next s
  | some l => afterLine l (perform (.bus l.op) s)

/-- The next operation of the trace: the first one issued, taken off the queue, else the firmware's (R17, R43, log entries
1 and 33). -/
def issueOperation (s : State) : Result :=
  match s.pending with
  | [] => runFirmware s
  | r :: rest => perform r (s.setPending rest)

/-- What comes next: CONSTRUCT, where the host has called for it, before the first transaction (R140); else the next
operation of the trace. A halted block has no step (R122). -/
def issueNext (s : State) : Result :=
  unlessHalted s
    (match s.launch with
     | some l => opConstruct l s
     | none => issueOperation s)

end Sys2Proof.Machine
end

