-- ==== Sys2Proof/Machine/Step.lean ====
section
/-! DEFINITION. One step of the machine: the next operation of the trace (R17, R43, R47). -/

namespace Sys2Proof.Machine

def step (s : State) : Host.Outcome State Fault Refusal := issueNext s

/-- `s` with the transaction whose bits are `w` issued next (log entry 2). -/
def State.withFetchWord (s : State) (nbits w : Nat) : State :=
  s.setPending (.bus (Transaction.ofTableWord nbits w) :: s.pending)

end Sys2Proof.Machine
end

