-- ==== Sys2Proof/Safety.lean ====
section
/-! DEFINITION. What claims about runs are stated in: runs and safe runs, what an operation of the trace is, the counter
reads of a trace, and the invariant of the machine. -/

namespace Sys2Proof.Machine

/-! ## Runs -/

/-- `k` steps from `s` end in `t`: no step of them stopped. -/
abbrev RunsTo (s : State) (k : Nat) (t : State) : Prop := Host.Core.run Sys2Proof.core k s = .next t

/-- A safe run of `k` steps: no refusal, no step after the end of the run, and no halt (R122: a claim that a program
reaches its end without halting is refuted by the halt). -/
def SafeRun (s : State) (k : Nat) : Prop := ∃ t, RunsTo s k t ∧ t.halted = false

/-! ## What an operation is -/

/-- The transaction the block receives for an operation, if it is one (R36, R55). -/
def deliveredTransaction : Request → Option Transaction
  | .bus t => some t
  | .guest a =>
    (route systemBases a.addr).bind fun p =>
      match a.kind with
      | .fetch => none
      | .read => some ⟨mkHeader p.1 false p.2, a.size, 0⟩
      | .write => some ⟨mkHeader p.1 true p.2, a.size, a.wdata⟩
  | .fetch _ _ | .save _ | .restore _ _ => none

/-- The instruction an operation runs, if any. -/
def instrOf (r : Request) : Option Instr :=
  (deliveredTransaction r).bind fun t =>
    match decode t with
    | .ok i => some i
    | .error _ => none

/-- The operation is a RESTORE of device `d` (R116). -/
def isRestoreOf (d : Dev) : Request → Bool
  | .restore e _ => e == d
  | .bus _ | .guest _ | .fetch _ _ | .save _ => false

/-- The operation is a read of TSTMR offset 0 (R106). -/
def isCounterRead (r : Request) : Bool := instrOf r == some .tstmrRdLo

/-- How often a trace reads the counter's low word (R110). -/
def counterReads (rs : List Request) : Nat := rs.countP isCounterRead

/-- The GPR an instruction writes, if any (R102). -/
def gprWritten : Instr → Option Nat
  | .sim0WrGprA i _ => some (gprIndexA i)
  | .sim0WrGprB i _ => some (gprIndexB i)
  | .sim0WrGprC i _ => some (gprIndexC i)
  | _ => none

/-- The instruction is a handled transmit write (R93). -/
def isMuTransmit : Instr → Bool
  | .muWrTr _ _ => true
  | _ => false

/-- The operation writes SIM0 GPR `k` (R102). -/
def isGprWrite (k : Nat) (r : Request) : Bool := (instrOf r).bind gprWritten == some k

/-- The operation is a handled transmit write (R93). -/
def isTransmit (r : Request) : Bool := (instrOf r).any isMuTransmit

/-- `s` with the operation `r` issued next. -/
def State.issuing (s : State) (r : Request) : State := s.setPending (r :: s.pending)

/-- `s` with CONSTRUCT called for by the host, before the run's first transaction (R140). -/
def State.launching (s : State) (l : Launch) : State := s.setConstruction (.before (some l))

/-- The operation that the next step of a constructed block performs: the first one issued, else the firmware's. -/
def State.nextRequest (s : State) : Option Request :=
  match s.pending with
  | r :: _ => some r
  | [] => s.firmware.current.map fun l => .bus l.op

/-- The operations that `k` steps of a constructed block perform, the first one first, issued or the firmware's (R47). -/
def performed : Nat → State → List Request
  | 0, _ => []
  | k + 1, s =>
    match step s with
    | .next t => s.nextRequest.toList ++ performed k t
    | .fault _ | .refused _ => []

/-! ## The invariant -/

/-- What holds of the block at reset and after every operation, those of the host included. -/
structure Inv (s : State) : Prop where
  /-- MU cells 191 to 255 have no name, no field of a snapshot and no write rule (R20, R93, R116): they hold the 0 of
  CONSTRUCT (the spec's decision D5, log entry 10), because they exist and nothing else touches them (DEDUCED, log entry
  24). -/
  unnamedCellsZero : ∀ i, 191 ≤ i → rfRead s.mu (4 * i) = 0
  /-- At the halt the mailbox stands as the halting write left it (R31, R123). -/
  haltedByReset : s.halted = true → muCommand s.mu = cmdSystemReset
  /-- A halted block was constructed (R126). -/
  haltedBuilt : s.halted = true → s.constructed = true
  /-- The halt's outcome is `Halted(0xC7)` (R121). -/
  haltedOutcome : s.halted = true → s.resp = .halted cmdSystemReset
  /-- And no other operation has that outcome (R121). -/
  outcomeHalted : ∀ id, s.resp = .halted id → s.halted = true
  /-- The log holds no system-reset command (R32, R121). -/
  logNoReset : Event.muCmd cmdSystemReset ∉ s.log
  /-- The log of a block that does not exist yet is empty (R32). -/
  unbuiltLogEmpty : s.constructed = false → s.log = []

end Sys2Proof.Machine
end

