-- ==== Sys2Proof/Certificates/Slice0/Obligations.lean ====
section
/-! DEFINITION. The statements for the provers. `RD` and `WR` are the transactions of R67; `s.issuing r` is `s` with the
operation `r` issued next, so that a step from it performs `r` in `s`. A statement that concludes with one whole state
says its frame with it: every field it does not name is that of `s`. -/

open Sys2Proof Sys2Proof.Machine

/-! ## Encoding and decoding -/

/-- Decoding the encoding of a well-formed instruction gives it back, with every operand (tables of R61 to R64), for
either admitted P_SIM0_GPR_COUNT. -/
def Obligations.DecodeOfEncodeIsIdentity : Prop :=
  ∀ (c : GprCount) (i : Instr), i.wellFormedWith c = true → decodeWith c (encode i) = .ok i

/-- What decodes is a well-formed instruction whose encoding is the transaction, a read's ignored `WDATA` apart (R53). -/
def Obligations.DecodedInstructionsEncodeBack : Prop :=
  ∀ (c : GprCount) (t : Transaction) (i : Instr), decodeWith c t = .ok i →
    i.wellFormedWith c = true ∧ encode i = ⟨t.header, 4, if headerW t.header then t.wdata else 0⟩

/-- R65: which transactions are refused and by which name, in the order of R60; every other one decodes to one
instruction of its device. -/
def Obligations.UndecodedHeadersAreRefusedByName : Prop :=
  ∀ (c : GprCount) (t : Transaction),
    (t.size ≠ 4 → decodeWith c t = .error .badSize) ∧
    (t.size = 4 → t.header.getLsbD 12 = true → decodeWith c t = .error .reservedHeaderBit) ∧
    (t.size = 4 → t.header.getLsbD 12 = false → t.header.extractLsb' 0 2 ≠ 0 →
      decodeWith c t = .error .misaligned) ∧
    (t.size = 4 → t.header.getLsbD 12 = false → t.header.extractLsb' 0 2 = 0 →
      headerDev t.header = .fsb → t.header.getLsbD 11 = true → decodeWith c t = .error .outOfWindow) ∧
    (t.size = 4 → t.header.getLsbD 12 = false → t.header.extractLsb' 0 2 = 0 →
      headerDev t.header = .tstmr → t.header.extractLsb' 10 2 ≠ 0 → decodeWith c t = .error .outOfWindow) ∧
    (t.size = 4 → t.header.getLsbD 12 = false → t.header.extractLsb' 0 2 = 0 →
      ¬ (headerDev t.header = .fsb ∧ t.header.getLsbD 11 = true) →
      ¬ (headerDev t.header = .tstmr ∧ t.header.extractLsb' 10 2 ≠ 0) →
      ∃ i, decodeWith c t = .ok i ∧ i.dev = headerDev t.header)

/-- R56: the index each operation takes from `OFF`, and that no offset below the range gives one. -/
def Obligations.DecodedIndexFields : Prop :=
  ∀ (c : GprCount) (t : Transaction),
    (∀ i, decodeWith c t = .ok (.fsbRd i) → i = t.header.extractLsb' 2 8 ∧ i.toNat = headerOff t.header / 4) ∧
    (∀ n, decodeWith c t = .ok (.muRdRr n) → n = t.header.extractLsb' 2 2 ∧
      0x280 ≤ headerOff t.header ∧ n.toNat = (headerOff t.header - 0x280) / 4) ∧
    (∀ n v, decodeWith c t = .ok (.muWrTr n v) → v = t.wdata ∧ n = t.header.extractLsb' 2 3 ∧
      0x200 ≤ headerOff t.header ∧ n.toNat = (headerOff t.header - 0x200) / 4) ∧
    (∀ i, decodeWith c t = .ok (.sim0RdGprA i) →
      0x10 ≤ headerOff t.header ∧ gprIndexA i = (headerOff t.header - 0x10) / 4 ∧ gprIndexA i < c.toNat) ∧
    (∀ i, decodeWith c t = .ok (.sim0RdGprB i) →
      0x10 ≤ headerOff t.header ∧ gprIndexB i = (headerOff t.header - 0x10) / 4 ∧ gprIndexB i < c.toNat) ∧
    (∀ i, decodeWith c t = .ok (.sim0RdGprC i) →
      0x10 ≤ headerOff t.header ∧ gprIndexC i = (headerOff t.header - 0x10) / 4 ∧ gprIndexC i < c.toNat) ∧
    (∀ i v, decodeWith c t = .ok (.sim0WrGprA i v) → v = t.wdata ∧
      0x10 ≤ headerOff t.header ∧ gprIndexA i = (headerOff t.header - 0x10) / 4 ∧ gprIndexA i < c.toNat) ∧
    (∀ i v, decodeWith c t = .ok (.sim0WrGprB i v) → v = t.wdata ∧
      0x10 ≤ headerOff t.header ∧ gprIndexB i = (headerOff t.header - 0x10) / 4 ∧ gprIndexB i < c.toNat) ∧
    (∀ i v, decodeWith c t = .ok (.sim0WrGprC i v) → v = t.wdata ∧
      0x10 ≤ headerOff t.header ∧ gprIndexC i = (headerOff t.header - 0x10) / 4 ∧ gprIndexC i < c.toNat)

/-- Some of the spec's own words (vectors DEC-1, 3, 5, 7, 10, 12, 15 of 95_test_vectors.md, and rows of R61 to R64). That
0x8034 is GPR 9 assumes P_SIM0_GPR_COUNT = 10, as R151 asks it to be said (the spec's decision D19, log entry 16). -/
def Obligations.ListedHeadersDecode : Prop :=
  decode ⟨0x4124, 4, 0⟩ = .ok .muRdTsr ∧ decode ⟨0x428C, 4, 0⟩ = .ok (.muRdRr 3) ∧
  decode ⟨0x621C, 4, 0⟩ = .ok (.muWrTr 7 0) ∧ decode ⟨0x8034, 4, 0⟩ = .ok (.sim0RdGprC 1) ∧
  decode ⟨0xA02C, 4, 9⟩ = .ok (.sim0WrGprB 3 9) ∧ decode ⟨0xC000, 4, 0⟩ = .ok .tstmrRdLo ∧
  decode ⟨0xE3FC, 4, 5⟩ = .ok (.tstmrWrNop 0xFF 5) ∧ decode ⟨0x03FC, 4, 0⟩ = .ok (.fsbRd 255)

/-- Within one device two rows take the same header only where the later one is a default row (R60, R62 to R64). -/
def Obligations.OnlyDefaultRowsOverlap : Prop :=
  ∀ (c : GprCount) (d : Dev) (h : Header) (i j : Nat) (r q : Row), i < j →
    (decodeTable c d)[i]? = some r → (decodeTable c d)[j]? = some q → r.hits h = true → q.hits h = true →
    (d, j) ∈ [(Dev.mu, 3), (Dev.mu, 5), (Dev.sim0, 4), (Dev.sim0, 8), (Dev.tstmr, 2)]

/-- The header carries device, direction and offset, and gives them back (the spec's own notation, D15). -/
def Obligations.HeaderCarriesItsFields : Prop :=
  ∀ (d : Dev) (w : Bool) (off : Nat), off < 4096 →
    headerDev (mkHeader d w off) = d ∧ headerW (mkHeader d w off) = w ∧
    headerR (mkHeader d w off) = false ∧ headerOff (mkHeader d w off) = off

/-- The admitted alternative P_SIM0_GPR_COUNT = 9 moves offset 0x34 to the default rows, and nothing else (D19, C6). -/
def Obligations.NineGprAlternativeMovesOneOffset : Prop :=
  (∀ v, decodeWith .nine (.rd .sim0 0x34) = .ok (.sim0RdZero 13) ∧
    decodeWith .nine (.wr .sim0 0x34 v) = .ok (.sim0WrNop 13 v) ∧
    decodeWith .ten (.rd .sim0 0x34) = .ok (.sim0RdGprC 1) ∧
    decodeWith .ten (.wr .sim0 0x34 v) = .ok (.sim0WrGprC 1 v)) ∧
  ∀ t : Transaction, ¬ (headerDev t.header = .sim0 ∧ headerOff t.header = 0x34) →
    decodeWith .nine t = decodeWith .ten t

/-! ## The step -/

/-- A step on a live block whose next operation is a transaction runs the decoded instruction, or refuses by the decoder's
name (R17, R43, R60): one issued is taken off the trace, and one of the firmware moves the firmware to the line its answer
selects (the model's own form of a program, log entry 33). -/
def Obligations.StepRunsTheDecodedTransaction : Prop :=
  (∀ (s : State) (t : Transaction) (rest : List Request), s.Live → s.pending = .bus t :: rest →
    (∀ i, decode t = .ok i → step s = exec i (s.setPending rest)) ∧
    (∀ e, decode t = .error e → step s = .refused (decodeRefusal e))) ∧
  (∀ (s : State) (l : Line), s.Live → s.pending = [] → s.firmware.lines[s.firmware.pos]? = some l →
    (∀ i, decode l.op = .ok i → ∃ t, exec i s = .next t ∧
      step s = .next (t.setFirmware ⟨s.firmware.lines, l.target t.resp⟩)) ∧
    (∀ e, decode l.op = .error e → step s = .refused (decodeRefusal e)))

/-- A table word placed with withFetchWord is what the very next step runs (log entry 2: the model's own placing). -/
def Obligations.StepRunsThePlacedTableWord : Prop :=
  ∀ (s : State) (nbits w : Nat) (i : Instr), s.Live → decodeTableWord nbits w = some i →
    step (s.withFetchWord nbits w) = exec i s

/-- With no operation issued and the firmware ended nothing happens: the block has no background activity (R10; the idle
step is the model's choice, log entry 1). -/
def Obligations.IdleBlockStays : Prop :=
  ∀ s : State, s.Ready → s.pending = [] → s.firmware.lines.length ≤ s.firmware.pos → step s = .next s

/-! ## Instructions complete, with their result and frame -/

/-- The FSB's three transactions. -/
def Obligations.FsbInstructionsComplete : Prop :=
  ∀ s : State, s.Live →
    (∀ i, exec (.fsbRd i) s = .next (s.setResp (.rdata (rfRead s.fsb (4 * i.toNat))))) ∧
    (∀ o, exec (.fsbRdZero o) s = .next (s.setResp (.rdata 0))) ∧
    (∀ o v, exec (.fsbWr o v) s = .next (s.setResp .written))

/-- The Secure Mailbox's four reads. -/
def Obligations.MuReadInstructionsComplete : Prop :=
  ∀ s : State, s.Live →
    exec .muRdTsr s = .next (s.setResp (.rdata 0xFFFFFFFF)) ∧
    exec .muRdRsr s = .next (s.setResp (.rdata 0xFFFFFFFF)) ∧
    (∀ n, exec (.muRdRr n) s = .next (s.setResp (.rdata (rfRead s.mu (0x280 + 4 * n.toNat))))) ∧
    (∀ o, exec (.muRdZero o) s = .next (s.setResp (.rdata 0)))

/-- The Secure Mailbox's two writes; that the store comes before the decode is the spec's decision D25 (log entry 20), and
that one MuCmd event is appended its decision D11 (log entry 30). -/
def Obligations.MuWriteInstructionsComplete : Prop :=
  ∀ s : State, s.Live →
    (∀ n v, muCommand (rfWrite s.mu (0x200 + 4 * n.toNat) v) = 0xC7 →
      exec (.muWrTr n v) s = .next (((s.setMu (rfWrite s.mu (0x200 + 4 * n.toNat) v)).setHalted true).setResp
        (.halted 0xC7))) ∧
    (∀ n v, muCommand (rfWrite s.mu (0x200 + 4 * n.toNat) v) ≠ 0xC7 →
      exec (.muWrTr n v) s = .next (((s.setMu (rfWrite s.mu (0x200 + 4 * n.toNat) v)).emit
        (.muCmd (muCommand (rfWrite s.mu (0x200 + 4 * n.toNat) v)))).setResp .written)) ∧
    (∀ o v, exec (.muWrNop o v) s = .next (s.setResp .written))

/-- SIM0's five reads. -/
def Obligations.Sim0ReadInstructionsComplete : Prop :=
  ∀ s : State, s.Live →
    exec .sim0RdStat s = .next (s.setResp (.rdata 0xFFFFFFFF)) ∧
    (∀ i, exec (.sim0RdGprA i) s = .next (s.setResp (.rdata (rfRead s.sim (0x10 + 4 * i.toNat))))) ∧
    (∀ i, exec (.sim0RdGprB i) s = .next (s.setResp (.rdata (rfRead s.sim (0x20 + 4 * i.toNat))))) ∧
    (∀ i, exec (.sim0RdGprC i) s = .next (s.setResp (.rdata (rfRead s.sim (0x30 + 4 * i.toNat))))) ∧
    (∀ o, exec (.sim0RdZero o) s = .next (s.setResp (.rdata 0)))

/-- SIM0's four writes. -/
def Obligations.Sim0WriteInstructionsComplete : Prop :=
  ∀ s : State, s.Live →
    (∀ i v, exec (.sim0WrGprA i v) s =
      .next ((s.setSim (rfWrite s.sim (0x10 + 4 * i.toNat) v)).setResp .written)) ∧
    (∀ i v, exec (.sim0WrGprB i v) s =
      .next ((s.setSim (rfWrite s.sim (0x20 + 4 * i.toNat) v)).setResp .written)) ∧
    (∀ i v, exec (.sim0WrGprC i v) s =
      .next ((s.setSim (rfWrite s.sim (0x30 + 4 * i.toNat) v)).setResp .written)) ∧
    (∀ o v, exec (.sim0WrNop o v) s = .next (s.setResp .written))

/-- The counter's four transactions; that the increment wraps and carries nowhere is the spec's decision D7 (log entry
21), and that a write completes is its decision D21 (log entry 22). -/
def Obligations.TstmrInstructionsComplete : Prop :=
  ∀ s : State, s.Live →
    exec .tstmrRdLo s = .next ((s.setTs ⟨s.ts.low + 1, s.ts.high⟩).setResp (.rdata s.ts.low)) ∧
    exec .tstmrRdHi s = .next (s.setResp (.rdata 0)) ∧
    (∀ o, exec (.tstmrRdZero o) s = .next (s.setResp (.rdata 0))) ∧
    (∀ o v, exec (.tstmrWrNop o v) s = .next (s.setResp .written))

/-! ## The rules of the devices, from the transaction to the next state -/

/-- R84: a read of a backed FSB word returns its cell and changes nothing. -/
def Obligations.FsbReadReturnsTheCell : Prop :=
  ∀ s : State, s.Live → ∀ i : Fin 256,
    step (s.issuing (.bus (.rd .fsb (4 * i.val)))) = .next (s.setResp (.rdata s.fsb[i]))

/-- R85: a read between the FSB's file and the end of its window returns 0 and changes nothing. -/
def Obligations.FsbReadBeyondTheFileIsZero : Prop :=
  ∀ s : State, s.Live → ∀ off, 0x400 ≤ off → off ≤ 0x7FC → off % 4 = 0 →
    step (s.issuing (.bus (.rd .fsb off))) = .next (s.setResp (.rdata 0))

/-- R86: any write to the FSB window completes with no effect. -/
def Obligations.FsbWriteIsDropped : Prop :=
  ∀ s : State, s.Live → ∀ off v, off ≤ 0x7FC → off % 4 = 0 →
    step (s.issuing (.bus (.wr .fsb off v))) = .next (s.setResp .written)

/-- R89 and R90: the two mailbox status words read all-ones in every state, and a read changes nothing. -/
def Obligations.MuStatusWordsReadAllOnes : Prop :=
  ∀ s : State, s.Live →
    step (s.issuing (.bus (.rd .mu 0x124))) = .next (s.setResp (.rdata 0xFFFFFFFF)) ∧
    step (s.issuing (.bus (.rd .mu 0x12C))) = .next (s.setResp (.rdata 0xFFFFFFFF))

/-- A read of receive word 0 to 3 returns it and does not consume it; receive words 4 to 15 read zero (R91, C5). -/
def Obligations.MuReceiveWordsAreReturned : Prop :=
  ∀ s : State, s.Live → ∀ n : Fin 16,
    step (s.issuing (.bus (.rd .mu (0x280 + 4 * n.val)))) =
      .next (s.setResp (.rdata (if n.val < 4 then s.mu[160 + n.val] else 0)))

/-- R92: every other aligned MU offset reads 0, and the read changes nothing. -/
def Obligations.OtherMuReadsAreZero : Prop :=
  ∀ s : State, s.Live → ∀ off, off ≤ 0xFFC → off % 4 = 0 → off ≠ 0x124 → off ≠ 0x12C →
    ¬ (0x280 ≤ off ∧ off ≤ 0x28C) →
    step (s.issuing (.bus (.rd .mu off))) = .next (s.setResp (.rdata 0))

/-- A write of transmit word 0 to 7 is stored, and then the identifier in bits 23:16 of the stored word 0 is decoded:
0xC7 halts, every other one is logged and has no other effect (R93; that the store comes first is the spec's decision
D25, and that one event is logged its decision D11; log entries 20 and 30). -/
def Obligations.MuTransmitStoresThenDecodes : Prop :=
  ∀ s : State, s.Live → ∀ (n : Fin 8) (v : Word),
    step (s.issuing (.bus (.wr .mu (0x200 + 4 * n.val) v))) =
      if ((s.mu.set (128 + n.val) v)[128]).extractLsb' 16 8 = 0xC7 then
        .next (((s.setMu (s.mu.set (128 + n.val) v)).setHalted true).setResp (.halted 0xC7))
      else
        .next (((s.setMu (s.mu.set (128 + n.val) v)).emit
          (.muCmd (((s.mu.set (128 + n.val) v)[128]).extractLsb' 16 8))).setResp .written)

/-- When a handled transmit write leaves 0xC7 in bits 23:16 of transmit word 0, the block halts with the outcome
`Halted(0xC7)`: the written word is stored, nothing else is flushed, cleared or logged (R94); and from then on neither
a step nor any transaction or host operation of any device has one, for which the fault runOver stands (log entry 4:
DESIGN CHOICE; R122 calls the halted state no fault). -/
def Obligations.SystemResetCommandEndsTheRun : Prop :=
  ∀ s : State, s.Live → ∀ (n : Fin 8) (v : Word),
    ((s.mu.set (128 + n.val) v)[128]).extractLsb' 16 8 = 0xC7 →
    ∃ t, step (s.issuing (.bus (.wr .mu (0x200 + 4 * n.val) v))) = .next t ∧
      t.halted = true ∧ t.resp = .halted 0xC7 ∧ t.mu = s.mu.set (128 + n.val) v ∧
      t.fsb = s.fsb ∧ t.sim = s.sim ∧ t.ts = s.ts ∧ t.log = s.log ∧ t.constructed = s.constructed ∧
      t.pending = s.pending ∧ t.firmware = s.firmware ∧ step t = .fault .runOver ∧
      (∀ r, perform r t = .fault .runOver) ∧ (∀ i, exec i t = .fault .runOver)

/-- R95: a write of any other aligned MU offset completes with no effect: no decode, no log. -/
def Obligations.OtherMuWritesAreDropped : Prop :=
  ∀ s : State, s.Live → ∀ off v, off ≤ 0xFFC → off % 4 = 0 → ¬ (0x200 ≤ off ∧ off ≤ 0x21C) →
    step (s.issuing (.bus (.wr .mu off v))) = .next (s.setResp .written)

/-- R99 and R104: the SIM0 status word reads all-ones in every state, and a write to it has no effect. -/
def Obligations.Sim0StatusIsReadOnlyAllOnes : Prop :=
  ∀ s : State, s.Live →
    step (s.issuing (.bus (.rd .sim0 0x8))) = .next (s.setResp (.rdata 0xFFFFFFFF)) ∧
    ∀ v, step (s.issuing (.bus (.wr .sim0 0x8 v))) = .next (s.setResp .written)

/-- A read of GPR `k` returns its cell and changes nothing (R100; ten GPRs by the spec's decision D19, log entry 16). -/
def Obligations.Sim0GprReadReturnsTheCell : Prop :=
  ∀ s : State, s.Live → ∀ k : Fin 10,
    step (s.issuing (.bus (.rd .sim0 (0x10 + 4 * k.val)))) = .next (s.setResp (.rdata s.sim[4 + k.val]))

/-- R101: every other aligned SIM0 offset reads 0, and the read changes nothing. -/
def Obligations.OtherSim0ReadsAreZero : Prop :=
  ∀ s : State, s.Live → ∀ off, off ≤ 0xFFC → off % 4 = 0 → off ≠ 0x8 → ¬ (0x10 ≤ off ∧ off ≤ 0x34) →
    step (s.issuing (.bus (.rd .sim0 off))) = .next (s.setResp (.rdata 0))

/-- A write of GPR `k` stores every bit of the word in its cell and changes no other cell (R102; ten GPRs by the spec's
decision D19, log entry 16). -/
def Obligations.Sim0GprWriteStoresTheWord : Prop :=
  ∀ s : State, s.Live → ∀ (k : Fin 10) (v : Word),
    step (s.issuing (.bus (.wr .sim0 (0x10 + 4 * k.val) v))) =
      .next ((s.setSim (s.sim.set (4 + k.val) v)).setResp .written)

/-- R103: a write of any other aligned SIM0 offset completes with no effect. -/
def Obligations.OtherSim0WritesAreDropped : Prop :=
  ∀ s : State, s.Live → ∀ off v, off ≤ 0xFFC → off % 4 = 0 → ¬ (0x10 ≤ off ∧ off ≤ 0x34) →
    step (s.issuing (.bus (.wr .sim0 off v))) = .next (s.setResp .written)

/-- A read of TSTMR offset 0 returns the low word and then adds one to it, modulo 2^32 and without a carry (R106; the
wrap is the spec's decision D7, log entry 21). -/
def Obligations.CounterReadReturnsThenIncrements : Prop :=
  ∀ s : State, s.Live →
    ∃ t, step (s.issuing (.bus (.rd .tstmr 0x0))) = .next t ∧ t.resp = .rdata s.ts.low ∧
      t.ts.low.toNat = (s.ts.low.toNat + 1) % 2 ^ 32 ∧ t.ts.high = s.ts.high ∧
      t = (s.setTs t.ts).setResp t.resp

/-- R107 and R108: TSTMR offset 4 and every other aligned offset of its window past 0 read 0, and none of these reads
counts. -/
def Obligations.OtherCounterReadsAreZero : Prop :=
  ∀ s : State, s.Live → ∀ off, 0x4 ≤ off → off ≤ 0x3FC → off % 4 = 0 →
    step (s.issuing (.bus (.rd .tstmr off))) = .next (s.setResp (.rdata 0))

/-- A write of any aligned TSTMR offset completes with no effect (R109, the spec's decision D21, log entry 22). -/
def Obligations.CounterWritesAreDropped : Prop :=
  ∀ s : State, s.Live → ∀ off v, off ≤ 0x3FC → off % 4 = 0 →
    step (s.issuing (.bus (.wr .tstmr off v))) = .next (s.setResp .written)

/-- R74 and R75: what the Register File returns and stores at backed and at unbacked offsets, and that a write leaves
every other offset alone. -/
def Obligations.RegisterFileReadsAndWrites : Prop :=
  ∀ (n : Nat) (F : RF n) (off : Nat) (v : Word),
    (∀ h : off % 4 = 0 ∧ off / 4 < n, rfRead F off = F[off / 4]'h.2 ∧ rfWrite F off v = F.set (off / 4) v h.2 ∧
      rfRead (rfWrite F off v) off = v) ∧
    (¬ (off % 4 = 0 ∧ off / 4 < n) → rfRead F off = 0 ∧ rfWrite F off v = F) ∧
    (∀ off', off' ≠ off → rfRead (rfWrite F off v) off' = rfRead F off') ∧
    (∀ w, rfWrite (rfWrite F off w) off v = rfWrite F off v) ∧
    rfWrite F off (rfRead F off) = F

/-! ## Rules of the whole machine -/

/-- Every instruction of a live block completes: none faults and none is refused (R120). -/
def Obligations.EveryInstructionCompletes : Prop :=
  ∀ (i : Instr) (s : State), s.Live → ∃ t, exec i s = .next t ∧ t.constructed = true ∧ t.pending = s.pending

/-- The one read with a side effect is that of TSTMR offset 0; every other read, of every device and offset, leaves the
state unchanged (R44). That the increment wraps and leaves the high word is the spec's decision D7 (log entry 21). -/
def Obligations.OnlyTheCounterReadHasASideEffect : Prop :=
  ∀ (i : Instr) (s : State), s.Live → headerW i.header = false →
    (i ≠ .tstmrRdLo → ∃ w, exec i s = .next (s.setResp (.rdata w))) ∧
    (i = .tstmrRdLo → exec i s = .next ((s.setTs ⟨s.ts.low + 1, s.ts.high⟩).setResp (.rdata s.ts.low)))

/-- Repeating a transaction changes nothing more, but for the counter read, which answers one more, and the handled
transmit write, which logs once more (R45, which the spec derives). That one more wraps is the spec's decision D7 (log entry
21), and that each repetition logs one event its decision D11 (log entry 30). -/
def Obligations.RepeatedTransactions : Prop :=
  ∀ (i : Instr) (s t : State), exec i s = .next t →
    (i ≠ .tstmrRdLo → isMuTransmit i = false → exec i t = .next t) ∧
    (i = .tstmrRdLo → ∃ u w, exec i t = .next u ∧ t.resp = .rdata w ∧ u.resp = .rdata (w + 1)) ∧
    (isMuTransmit i = true → t.halted = false →
      exec i t = .next (t.emit (.muCmd (muCommand t.mu))))

/-- R87: once the block is constructed, only a RESTORE of the FSB changes the FSB. -/
def Obligations.OnlyRestoreChangesTheFsb : Prop :=
  ∀ s t : State, s.constructed = true → step s = .next t → t.fsb ≠ s.fsb →
    ∃ b rest, s.pending = .restore .fsb b :: rest

/-- Which operation can change each part of a constructed block (R35, which the spec derives): the FSB only a RESTORE
of it; the mailbox only a handled transmit write, and only in one of its words 0 to 7, or its RESTORE; the halt only a handled
transmit write; SIM0 only a GPR write or its RESTORE; the counter
only its offset-0 read or its RESTORE; the log only a handled transmit write, at its end. That receive words change by
RESTORE alone is the spec's decision D12 (log entry 25), and that one event is logged its decision D11 (log entry 30); that
SIM0 has the GPRs 0 to 9 its decision D19 (log entry 16); the clauses on the pending operations and the firmware are the
model's own (log entries 1 and 33). -/
def Obligations.EachPartChangesOnlyByItsOwnOperations : Prop :=
  ∀ (s t : State) (r : Request), s.constructed = true → s.nextRequest = some r → step s = .next t →
    t.constructed = true ∧ t.pending = s.pending.tail ∧ t.firmware.lines = s.firmware.lines ∧
    (s.pending ≠ [] → t.firmware = s.firmware) ∧
    (t.fsb ≠ s.fsb → isRestoreOf .fsb r = true) ∧
    (t.halted ≠ s.halted → isTransmit r = true) ∧
    (t.mu ≠ s.mu → isTransmit r = true ∨ isRestoreOf .mu r = true) ∧
    (isRestoreOf .mu r = false → ∀ j, ¬ (128 ≤ j ∧ j < 136) → rfRead t.mu (4 * j) = rfRead s.mu (4 * j)) ∧
    (t.sim ≠ s.sim → (∃ k, k < 10 ∧ isGprWrite k r = true) ∨ isRestoreOf .sim0 r = true) ∧
    (t.ts ≠ s.ts → isCounterRead r = true ∨ isRestoreOf .tstmr r = true) ∧
    (isTransmit r = false → t.log = s.log) ∧
    (isTransmit r = true → t.halted = false → t.log = s.log ++ [.muCmd (muCommand t.mu)])

/-- `halted` is false after construction; it becomes true exactly when a handled transmit write leaves 0xC7 in bits 23:16
of transmit word 0; and from a halted state no transaction and no host operation has a step (R31), for which the fault
runOver stands (log entry 4: DESIGN CHOICE; R122 calls the halted state no fault). -/
def Obligations.HaltedExactlyBySystemReset : Prop :=
  State.reset.halted = false ∧
  (∀ s t : State, s.halted = false → step s = .next t →
    (t.halted = true ↔ ∃ r, s.nextRequest = some r ∧ isTransmit r = true ∧
      (rfRead t.mu 0x200).extractLsb' 16 8 = 0xC7)) ∧
  (∀ s : State, s.halted = true → step s = .fault .runOver ∧ ∀ r, perform r s = .fault .runOver)

/-- Before CONSTRUCT every transaction, SAVE and RESTORE is refused (R126, the spec's decision D26; that this comes before
the decoder's refusals and before BadSnapshot is the model's choice, log entry 7). -/
def Obligations.NothingBeforeConstruction : Prop :=
  ∀ s : State, s.halted = false → s.constructed = false →
    (∀ t, perform (.bus t) s = .refused .notConstructed) ∧
    (∀ d, perform (.save d) s = .refused .notConstructed) ∧
    (∀ d b, perform (.restore d b) s = .refused .notConstructed) ∧
    (∀ i, exec i s = .refused .notConstructed) ∧
    (s.launch = none →
      (∀ t, step (s.issuing (.bus t)) = .refused .notConstructed) ∧
      (∀ d, step (s.issuing (.save d)) = .refused .notConstructed) ∧
      (∀ d b, step (s.issuing (.restore d b)) = .refused .notConstructed))

/-- A fetch from any window of the block is refused, as a fetch and as a guest access (R50, the spec's decision D17). That
a fetch before CONSTRUCT has this reason too is the model's choice (log entry 7), and so is that an offset at or past the
end of the window has it (log entry 34): R50 and R38 say neither. -/
def Obligations.FetchFromAWindowIsRefused : Prop :=
  ∀ s : State, s.halted = false → ∀ (d : Dev) (off : Nat),
    perform (.fetch d off) s = .refused .fetchFromDevice ∧
    (s.launch = none →
      step (s.issuing (.fetch d off)) = .refused .fetchFromDevice ∧
      ∀ size v, off < d.span → step (s.issuing (.guest ⟨Bases.of systemBases d + off, .fetch, size, v⟩)) =
        .refused .fetchFromDevice)

/-! ## Construction and reset -/

/-- The reset state is what CONSTRUCT makes of the unbuilt block with the launch inputs (R112, R138). -/
def Obligations.ConstructReachesTheResetState : Prop :=
  step (State.unbuilt.launching ⟨bootFuse, bootFsbMap, Config.tstmrReset⟩) = .next State.reset

/-- When the CONSTRUCT that the host calls for completes and which refusal stops it (R112), and that a constructed block
never sees another one (R140; that its type leaves no place for one is the model's reading, log entry 8). Which tables are
admitted is the model's reading of R82: a table that breaks R83 (c) is not (log entry 14), the regions may stand in any
order (log entry 15), destinations may be adjacent and an 8-word region may start inside a bank (log entries 36 and 37,
unsafe for the clause that CONSTRUCT completes). The order of the two checks is the model's choice (log entry 9); that every MU and SIM0 cell and the high word are 0 are the
spec's decisions D5 and D7 (log entries 10 and 21). -/
def Obligations.ConstructCompletesOrRefuses : Prop :=
  (∀ (s : State) (l : Launch), s.halted = false → s.launch = some l →
    (l.fuse.length = 512 → fsbMapOk l.map = true →
      ∃ t, step s = .next t ∧ t.fsb = fsbLoad l.fuse l.map ∧
        (∀ j, rfRead t.mu j = 0) ∧ (∀ j, rfRead t.sim j = 0) ∧ t.ts = ⟨l.tsReset, 0⟩ ∧ t.halted = false ∧ t.log = [] ∧
        t.constructed = true ∧ t.pending = s.pending ∧ t.firmware = s.firmware) ∧
    (l.fuse.length ≠ 512 → step s = .refused .badConstruct) ∧
    (l.fuse.length = 512 → fsbMapOk l.map = false → step s = .refused .badFsbMap)) ∧
  (∀ s t : State, s.constructed = true → step s = .next t → t.constructed = true ∧ t.launch = none) ∧
  (∀ s t : State, s.constructed = false → step s = .next t → t.constructed = true → ∃ l, s.launch = some l)

/-- FSB.LOAD: with a table that R82 admits, every destination cell holds its fuse word and every other cell 0 (R81; the 0
is the spec's decision D9, log entry 11). -/
def Obligations.FsbLoadCopiesTheTable : Prop :=
  ∀ (fuse : List Word) (m : List FsbEntry), fuse.length = 512 → fsbMapOk m = true →
    (∀ e ∈ m, ∀ k, k < e.len → rfRead (fsbLoad fuse m) (4 * (e.dst + k)) = fuse.getD (e.src + k) 0) ∧
    (∀ j, (∀ e ∈ m, ¬ (e.dst ≤ j ∧ j < e.dst + e.len)) → rfRead (fsbLoad fuse m) (4 * j) = 0)

/-- The pinned fuse words stand in the FSB at reset, whatever the rest of the table is (R83; its part (c), words 297 to
303, is the spec's own reading, log entry 14). -/
def Obligations.PinnedFuseWordsAtReset : Prop :=
  ∀ k, k < 8 → rfRead State.reset.fsb (4 * k) = Config.fuseWord (24 + k) ∧
    rfRead State.reset.fsb (0x180 + 4 * k) = Config.fuseWord (296 + k)

/-- What reset leaves (R34; its zeros are the spec's decisions D5 and D7, log entries 10 and 21; the FSB stands in
ConstructReachesTheResetState and PinnedFuseWordsAtReset). -/
def Obligations.ResetValues : Prop :=
  (∀ off, rfRead State.reset.mu off = 0) ∧ (∀ off, rfRead State.reset.sim off = 0) ∧
  State.reset.ts = ⟨Config.tstmrReset, 0⟩ ∧ State.reset.halted = false ∧ State.reset.log = [] ∧
  State.reset.constructed = true

/-! ## Snapshots -/

/-- SAVE answers the version tag with the device's words in declared order and changes no state of the block (R115; the
field list is the spec's decision D18, log entry 17). -/
def Obligations.SaveListsTheFields : Prop :=
  ∀ s : State, s.Live →
    step (s.issuing (.save .fsb)) = .next (s.setResp (.saved ⟨Config.snapVersion .fsb, s.fsb.toList⟩)) ∧
    step (s.issuing (.save .mu)) = .next (s.setResp (.saved ⟨Config.snapVersion .mu, s.mu.toList.take 191⟩)) ∧
    step (s.issuing (.save .sim0)) = .next (s.setResp (.saved ⟨Config.snapVersion .sim0, s.sim.toList⟩)) ∧
    step (s.issuing (.save .tstmr)) =
      .next (s.setResp (.saved ⟨Config.snapVersion .tstmr, [s.ts.low, s.ts.high]⟩))

/-- RESTORE with the right tag and word count assigns the device's words in that order and changes nothing else: no log, no
command decode, no halt; any other blob is refused (R116; tag, count, field list and refusal are the spec's decision D18,
log entry 17). That it assigns tr[8..15], the unnamed SIM0 cells and ts.high too is the model's reading (log entry 23:
DEDUCED, against the words of R21, R28 and R30), and so is that MU cells 191 to 255 exist and stay (log entry 24: DEDUCED). -/
def Obligations.RestoreAssignsTheFields : Prop :=
  ∀ (s : State) (d : Dev) (b : Blob), s.Live →
    ((b.tag ≠ Config.snapVersion d ∨ b.fields.length ≠ snapWords d) →
      step (s.issuing (.restore d b)) = .refused .badSnapshot) ∧
    (b.tag = Config.snapVersion d → b.fields.length = snapWords d →
      ∃ t, step (s.issuing (.restore d b)) = .next t ∧ t.resp = .restored ∧ t.halted = false ∧ t.log = s.log ∧
        t.constructed = s.constructed ∧ t.pending = s.pending ∧ t.firmware = s.firmware ∧
        (∀ j, rfRead t.fsb (4 * j) = if d = .fsb ∧ j < 256 then b.fields.getD j 0 else rfRead s.fsb (4 * j)) ∧
        (∀ j, rfRead t.mu (4 * j) = if d = .mu ∧ j < 191 then b.fields.getD j 0 else rfRead s.mu (4 * j)) ∧
        (∀ j, rfRead t.sim (4 * j) = if d = .sim0 ∧ j < 44 then b.fields.getD j 0 else rfRead s.sim (4 * j)) ∧
        t.ts = if d = .tstmr then ⟨b.fields.getD 0 0, b.fields.getD 1 0⟩ else s.ts)

/-- Restoring a device's own snapshot changes no state, and restoring it on another constructed block makes every bus
read of the device answer the same on both (R117). -/
def Obligations.RestoreOfASaveRoundTrips : Prop :=
  ∀ (s u : State) (d : Dev), s.Live → u.Live →
    ∃ b, step (s.issuing (.save d)) = .next (s.setResp (.saved b)) ∧
      step (s.issuing (.restore d b)) = .next (s.setResp .restored) ∧
      ∃ t, step (u.issuing (.restore d b)) = .next t ∧
        ∀ i : Instr, i.dev = d → headerW i.header = false →
          ∃ w s' t', exec i s = .next s' ∧ exec i t = .next t' ∧ s'.resp = .rdata w ∧ t'.resp = .rdata w

/-- A mailbox whose transmit word 0 holds the system-reset identifier, as only a RESTORE can leave it on a live block,
halts at the next write of transmit word 1 to 7 (R116); a write of word 0 decides by the word it stores
(MuTransmitStoresThenDecodes). That transmit word 0 is word 128 of a blob of 191 is the field list of the spec's decision
D18 (log entry 17, unsafe for a claim about the words of a blob). -/
def Obligations.RestoredSystemResetArmsTheHalt : Prop :=
  ∀ (s : State) (b : Blob), s.Live → b.tag = Config.snapVersion .mu → b.fields.length = 191 →
    (b.fields.getD 128 0).extractLsb' 16 8 = 0xC7 →
    ∃ t, step (s.issuing (.restore .mu b)) = .next t ∧ t.halted = false ∧ t.log = s.log ∧
      ∀ (n : Fin 8) (v : Word), n.val ≠ 0 →
        ∃ u, step (t.issuing (.bus (.wr .mu (0x200 + 4 * n.val) v))) = .next u ∧ u.halted = true ∧
          u.resp = .halted 0xC7 ∧ rfRead u.mu (0x200 + 4 * n.val) = v

/-! ## Guest addresses -/

/-- With bases that R37 admits, the bus turns an address of a window into its device and offset, and no other address
reaches the block; the bases of this block are such bases (R37, R55). -/
def Obligations.GuestAddressesRouteToTheirWindow : Prop :=
  basesOk systemBases = true ∧
  ∀ b : Bases, basesOk b = true →
    (∀ (d : Dev) (off : Nat), off < d.span → route b (Bases.of b d + off) = some (d, off)) ∧
    (∀ a, route b a = none ↔ ∀ d : Dev, ¬ (Bases.of b d ≤ a ∧ a < Bases.of b d + d.span))

/-- A guest access of one word inside a window is the transaction `RD` or `WR` at its offset; outside the windows it
leaves the block as it is (R55; the latter is the model's choice, log entry 18). -/
def Obligations.GuestAccessIsItsTransaction : Prop :=
  ∀ s : State, s.Ready →
    (∀ (d : Dev) (off : Nat) (v : Word), off < d.span →
      step (s.issuing (.guest ⟨Bases.of systemBases d + off, .read, 4, v⟩)) =
        step (s.issuing (.bus (.rd d off))) ∧
      step (s.issuing (.guest ⟨Bases.of systemBases d + off, .write, 4, v⟩)) =
        step (s.issuing (.bus (.wr d off v)))) ∧
    (∀ a : GuestAccess, route systemBases a.addr = none → step (s.issuing (.guest a)) = .next s)

/-! ## Invariants and runs -/

/-- The invariant holds at reset. That MU cells 191 to 255 exist and hold 0 there rests on log entries 10 (the spec's
decision D5) and 24 (DEDUCED). -/
def Obligations.InvariantHoldsAtReset : Prop := Inv State.reset

/-- Every step keeps the invariant, whatever operation of whichever agent it performs. Its clause on MU cells 191 to 255
rests on log entries 24 (DEDUCED: they exist, and only CONSTRUCT touches them) and 10 (CONSTRUCT's 0, the spec's decision
D5). -/
def Obligations.EveryStepKeepsTheInvariant : Prop :=
  ∀ s t : State, Inv s → step s = .next t → Inv t

/-- The counter counts the reads of its offset 0 and nothing else: a step that performs no RESTORE of TSTMR adds one to the
low word exactly when it performs such a read, and leaves the high word; so over any run without one, the firmware's
operations included, the low word has grown by the number of the reads modulo 2^32, and a further read returns that value;
so too for a run of operations issued (R110; the wrap is the spec's decision D7, log entry 21; the firmware is the model's
own, log entry 33). -/
def Obligations.CounterCountsItsReads : Prop :=
  (∀ (s t : State) (r : Request), s.Live → s.nextRequest = some r → isRestoreOf .tstmr r = false → step s = .next t →
    t.ts.low = s.ts.low + (if isCounterRead r then 1 else 0) ∧ t.ts.high = s.ts.high) ∧
  (∀ (s t : State) (k : Nat), s.Live → (∀ r ∈ performed k s, isRestoreOf .tstmr r = false) → RunsTo s k t →
    t.ts.low = s.ts.low + BitVec.ofNat 32 (counterReads (performed k s)) ∧ t.ts.high = s.ts.high ∧
    (t.halted = false → ∃ u, step (t.issuing (.bus (.rd .tstmr 0))) = .next u ∧
      u.resp = .rdata (s.ts.low + BitVec.ofNat 32 (counterReads (performed k s))))) ∧
  (∀ (s t : State) (rs rest : List Request), s.Live → s.pending = rs ++ rest →
    (∀ r ∈ rs, isRestoreOf .tstmr r = false) → RunsTo s rs.length t →
    t.ts.low = s.ts.low + BitVec.ofNat 32 (counterReads rs) ∧ t.ts.high = s.ts.high ∧
    (t.halted = false → ∃ u, step (t.issuing (.bus (.rd .tstmr 0))) = .next u ∧
      u.resp = .rdata (s.ts.low + BitVec.ofNat 32 (counterReads rs))))

/-- A GPR read returns the latest earlier write of that GPR (R47 (a)): a step that neither writes GPR `k` nor restores SIM0
leaves its cell; so after any run without such an operation, the firmware's included, a read answers the cell of the run's
first state, and after a write and such a run the word written; so too for a run of operations issued. That `k = 9`, offset
0x34, is a GPR assumes P_SIM0_GPR_COUNT = 10, as R151 asks it to be said (the spec's decision D19, log entry 16); the
firmware is the model's own (log entry 33). -/
def Obligations.GprReadReturnsTheLatestWrite : Prop :=
  (∀ (s t : State) (k : Fin 10) (r : Request), s.Live → s.nextRequest = some r → isGprWrite k.val r = false →
    isRestoreOf .sim0 r = false → step s = .next t → t.sim[4 + k.val] = s.sim[4 + k.val]) ∧
  (∀ (s t : State) (k : Fin 10) (n : Nat), s.Live →
    (∀ r ∈ performed n s, isGprWrite k.val r = false ∧ isRestoreOf .sim0 r = false) → RunsTo s n t → t.halted = false →
    ∃ w, step (t.issuing (.bus (.rd .sim0 (0x10 + 4 * k.val)))) = .next w ∧ w.resp = .rdata s.sim[4 + k.val]) ∧
  (∀ (s u t : State) (k : Fin 10) (v : Word) (n : Nat), s.Live →
    step (s.issuing (.bus (.wr .sim0 (0x10 + 4 * k.val) v))) = .next u →
    (∀ r ∈ performed n u, isGprWrite k.val r = false ∧ isRestoreOf .sim0 r = false) → RunsTo u n t → t.halted = false →
    ∃ w, step (t.issuing (.bus (.rd .sim0 (0x10 + 4 * k.val)))) = .next w ∧ w.resp = .rdata v) ∧
  (∀ (s u t : State) (k : Fin 10) (v : Word) (rs rest : List Request), s.Live → s.pending = rs ++ rest →
    (∀ r ∈ rs, isGprWrite k.val r = false ∧ isRestoreOf .sim0 r = false) →
    step (s.issuing (.bus (.wr .sim0 (0x10 + 4 * k.val) v))) = .next u → RunsTo u rs.length t → t.halted = false →
    ∃ w, step (t.issuing (.bus (.rd .sim0 (0x10 + 4 * k.val)))) = .next w ∧ w.resp = .rdata v)

/-- FSB reads return the copy the block holds, which is the construction-time one (R47 (e), R88): from every live state, a
step that performs no RESTORE of the FSB leaves it; after any run with none among its operations, the firmware's included,
a read answers the cell of the first state; and so from reset the word that FSB.LOAD put there. -/
def Obligations.FsbReadsReturnTheConstructionCopy : Prop :=
  (∀ (s t : State) (r : Request), s.Live → s.nextRequest = some r → isRestoreOf .fsb r = false → step s = .next t →
    t.fsb = s.fsb) ∧
  (∀ (s t : State) (k : Nat) (i : Fin 256), s.Live → (∀ r ∈ s.pending.take k, isRestoreOf .fsb r = false) →
    RunsTo s k t → t.halted = false →
    ∃ u, step (t.issuing (.bus (.rd .fsb (4 * i.val)))) = .next u ∧ u.resp = .rdata s.fsb[i]) ∧
  (∀ (t : State) (rs : List Request) (f : Firmware) (k : Nat) (i : Fin 256),
    (∀ r ∈ rs, isRestoreOf .fsb r = false) →
    RunsTo ((State.reset.setPending rs).setFirmware f) k t → t.halted = false →
    ∃ u, step (t.issuing (.bus (.rd .fsb (4 * i.val)))) = .next u ∧
      u.resp = .rdata (fsbLoad bootFuse bootFsbMap)[i])

/-- A wait that nothing ends runs for ever (R146, R149, which the spec derives): firmware at a line that polls a receive
word, a ready status word or the counter's high word, and that stays at the line for the word it is answered, runs any
number of steps, and nothing changes but the response; and no firmware whose lines decode and write no transmit word is ever
cut short. That nothing writes a receive word is the spec's decision D12 (log entry 25, unsafe with a host-side handler); the
form of the firmware is the model's own (log entry 33), and so are the idle steps that the second clause counts once the
firmware has ended (log entry 1); offset 4 answers 0 by R107. -/
def Obligations.EndlessWaitsRunForEver : Prop :=
  (∀ (s : State) (l : Line), s.Live → s.pending = [] → s.firmware.lines[s.firmware.pos]? = some l →
    ((∃ n : Fin 4, l.op = .rd .mu (0x280 + 4 * n.val) ∧ l.target (.rdata s.mu[160 + n.val]) = s.firmware.pos) ∨
     ((l.op = .rd .mu 0x124 ∨ l.op = .rd .mu 0x12C) ∧ l.target (.rdata 0xFFFFFFFF) = s.firmware.pos) ∨
     (l.op = .rd .tstmr 0x4 ∧ l.target (.rdata 0) = s.firmware.pos)) →
    ∀ k, ∃ r, RunsTo s k (s.setResp r)) ∧
  (∀ s : State, s.Live → s.pending = [] →
    (∀ l ∈ s.firmware.lines, ∃ i, decode l.op = .ok i ∧ isMuTransmit i = false) →
    ∀ k, ∃ t, RunsTo s k t ∧ t.Live)
end

