-- ==== Sys2Proof/Laws/Decode.lean ====
section
/-! SUPPORT. The bits of a header and what a row's mask says of them. -/

namespace Sys2Proof

/-- The field of a header that starts at bit 2 comes back from it (R61 to R64). -/
theorem extract_fieldAt2 {n : Nat} (m : Header) (x : BitVec n) (hn : n ≤ 10)
    (hm : ∀ j, j < n → m.getLsbD (2 + j) = false) : (m ||| fieldAt2 x).extractLsb' 2 n = x := by
  apply BitVec.eq_of_getLsbD_eq
  intro j hj
  have h1 : 2 + j < 16 := by omega
  have h2 : ¬ 2 + j ≤ 1 := by omega
  have h3 : m[2 + j] = false := by simpa [BitVec.getLsbD_eq_getElem, h1] using hm j hj
  simp [fieldAt2, hj, h1, h2, h3]

/-- The transactions that pass every check (R60). -/
theorem checkTransaction_none_iff {t : Transaction} : checkTransaction t = none ↔
    t.size = 4 ∧ headerR t.header = false ∧ t.header.extractLsb' 0 2 = 0 ∧
      headerOff t.header < (headerDev t.header).span := by
  unfold checkTransaction
  by_cases h1 : t.size = 4
  · by_cases h2 : headerR t.header = true
    · simp [h1, h2]
    · by_cases h3 : t.header.extractLsb' 0 2 = 0
      · simp [h1, h2, h3]
      · simp only [h1, h2, h3, ne_eq, not_false_eq_true, not_true_eq_false, if_true, if_false]
        simp
  · simp [h1]

/-- A field at bit 2 reaches up to bit `n + 1` only. -/
theorem getLsbD_fieldAt2_high {n : Nat} (x : BitVec n) {j : Nat} (h : n + 2 ≤ j) : (fieldAt2 x).getLsbD j = false := by
  simp [fieldAt2, BitVec.getLsbD_of_ge x (j - 2) (by omega)]

/-- And it leaves bits 1:0 alone. -/
theorem getLsbD_fieldAt2_low {n : Nat} (x : BitVec n) {j : Nat} (h : j < 2) : (fieldAt2 x).getLsbD j = false := by
  simp [fieldAt2, h]

/-- A field of at most 10 bits changes neither `DEV`, nor `R`, nor `OFF[1:0]`. -/
theorem headerDev_or_fieldAt2 {n : Nat} (m : Header) (x : BitVec n) (hn : n ≤ 10) :
    headerDev (m ||| fieldAt2 x) = headerDev m := by
  unfold headerDev
  congr 1
  apply BitVec.eq_of_getLsbD_eq
  intro j hj
  rw [BitVec.getLsbD_extractLsb', BitVec.getLsbD_extractLsb', BitVec.getLsbD_or,
    getLsbD_fieldAt2_high x (by omega), Bool.or_false]

theorem headerR_or_fieldAt2 {n : Nat} (m : Header) (x : BitVec n) (hn : n ≤ 10) :
    headerR (m ||| fieldAt2 x) = headerR m := by
  unfold headerR
  rw [BitVec.getLsbD_or, getLsbD_fieldAt2_high x (by omega), Bool.or_false]

theorem lowBits_or_fieldAt2 {n : Nat} (m : Header) (x : BitVec n) :
    (m ||| fieldAt2 x).extractLsb' 0 2 = m.extractLsb' 0 2 := by
  apply BitVec.eq_of_getLsbD_eq
  intro j hj
  rw [BitVec.getLsbD_extractLsb', BitVec.getLsbD_extractLsb', BitVec.getLsbD_or,
    getLsbD_fieldAt2_low x (by omega), Bool.or_false]

/-- The offset stays below `2 ^ k` when neither the row nor the field has a bit of `OFF` there. -/
theorem headerOff_or_fieldAt2_lt {n k : Nat} (m : Header) (x : BitVec n) (hn : n + 2 ≤ k)
    (hm : ∀ j, k ≤ j → j < 12 → m.getLsbD j = false) : headerOff (m ||| fieldAt2 x) < 2 ^ k := by
  apply Nat.lt_pow_two_of_testBit
  intro j hj
  change ((m ||| fieldAt2 x).extractLsb' 0 12).getLsbD j = false
  rw [BitVec.getLsbD_extractLsb']
  by_cases h : j < 12
  · rw [BitVec.getLsbD_or, getLsbD_fieldAt2_high x (by omega), Nat.zero_add, hm j hj h]
    simp
  · simp [h]

/-- A row's header with its field filled in passes the checks of R60 when the bare row's bits do. -/
theorem checkTransaction_or_fieldAt2 {n k : Nat} (m : Header) (x : BitVec n) (v : Word) (hn : n + 2 ≤ k) (hk : k ≤ 12)
    (hm : ∀ j, k ≤ j → j < 12 → m.getLsbD j = false) (hr : headerR m = false) (hl : m.extractLsb' 0 2 = 0)
    (hs : 2 ^ k ≤ (headerDev m).span) : checkTransaction ⟨m ||| fieldAt2 x, 4, v⟩ = none := by
  rw [checkTransaction_none_iff]
  refine ⟨rfl, ?_, ?_, ?_⟩
  · rw [headerR_or_fieldAt2 m x (by omega), hr]
  · rw [lowBits_or_fieldAt2, hl]
  · rw [headerDev_or_fieldAt2 m x (by omega)]
    exact Nat.lt_of_lt_of_le (headerOff_or_fieldAt2_lt m x hn hm) hs

/-- A row hits exactly when its mask leaves its match value. -/
theorem Row.hits_iff {h : Header} {r : Row} : r.hits h = true ↔ h &&& r.mask = r.value := by
  simp [Row.hits]

/-- The first row that hits, when there is one. -/
theorem decodeWith_of_find {c : GprCount} {t : Transaction} {r : Row} (hc : checkTransaction t = none)
    (hf : (decodeTable c (headerDev t.header)).find? (Row.hits t.header) = some r) :
    decodeWith c t = .ok (r.build t.header t.wdata) := by
  simp [decodeWith, hc, hf]

/-- The same by the row's index, so that for a known header each premise is a closed evaluation whatever the `WDATA`. -/
theorem decodeWith_of_index {c : GprCount} {h : Header} {v : Word} {r : Row} (d : Dev) (k : Nat)
    (hc : checkTransaction ⟨h, 4, 0⟩ = none) (hd : headerDev h = d)
    (hk : (decodeTable c d).findIdx? (Row.hits h) = some k) (hr : (decodeTable c d)[k]? = some r) :
    decodeWith c ⟨h, 4, v⟩ = .ok (r.build h v) := by
  subst hd
  obtain ⟨hlt, hp, hn⟩ := List.findIdx?_eq_some_iff_getElem.mp hk
  have he : (decodeTable c (headerDev h))[k] = r := Option.some.inj ((List.getElem?_eq_getElem hlt).symm.trans hr)
  refine decodeWith_of_find (t := ⟨h, 4, v⟩) hc (List.find?_eq_some_iff_getElem.mpr ?_)
  exact ⟨he ▸ hp, k, hlt, he, fun j hj => by simpa using hn j hj⟩

/-- A decoded transaction passed every check, and the instruction is that of the first row that hits (R60). -/
theorem decodeWith_ok {c : GprCount} {t : Transaction} {i : Instr} (h : decodeWith c t = .ok i) :
    checkTransaction t = none ∧ ∃ r, (decodeTable c (headerDev t.header)).find? (Row.hits t.header) = some r ∧
      i = r.build t.header t.wdata := by
  unfold decodeWith at h
  split at h
  · cases h
  · refine ⟨‹_›, ?_⟩
    split at h
    · rename_i r hr
      exact ⟨r, hr, by simpa [eq_comm] using h⟩
    · cases h

end Sys2Proof
end

