-- ==== Sys2Proof/Laws/RegisterFile.lean ====
section
/-! SUPPORT. What the Register File primitive does (R74 to R80). -/

namespace Sys2Proof.Machine

variable {n : Nat}

/-- A backed read returns the cell (R74). -/
theorem rfRead_backed (F : RF n) {off : Nat} (h : Backed n off) : rfRead F off = F[off / 4]'h.2 := dif_pos h

/-- An unbacked read returns 0 (R74). -/
theorem rfRead_unbacked (F : RF n) {off : Nat} (h : ¬ Backed n off) : rfRead F off = 0 := dif_neg h

/-- A backed write replaces the cell (R75). -/
theorem rfWrite_backed (F : RF n) {off : Nat} (v : Word) (h : Backed n off) :
    rfWrite F off v = F.set (off / 4) v h.2 := dif_pos h

/-- An unbacked write is a no-op (R75). -/
theorem rfWrite_unbacked (F : RF n) {off : Nat} (v : Word) (h : ¬ Backed n off) : rfWrite F off v = F := dif_neg h

theorem rfRead_cell (F : RF n) {i : Nat} (h : i < n) : rfRead F (4 * i) = F[i] := by
  have hb : Backed n (4 * i) := ⟨by omega, by omega⟩
  rw [rfRead_backed F hb]
  simp

theorem rfRead_beyond (F : RF n) {i : Nat} (h : n ≤ i) : rfRead F (4 * i) = 0 :=
  rfRead_unbacked F fun hb => by have := hb.2; omega

/-- A read after a write to the same backed offset gives the value written (R75). -/
theorem rfRead_rfWrite_same (F : RF n) {off : Nat} (v : Word) (h : Backed n off) :
    rfRead (rfWrite F off v) off = v := by
  rw [rfRead_backed _ h, rfWrite_backed F v h, Vector.getElem_set_self]

/-- A write leaves every other offset alone (R75, R78). -/
theorem rfRead_rfWrite_other (F : RF n) {off off' : Nat} (v : Word) (h : off' ≠ off) :
    rfRead (rfWrite F off v) off' = rfRead F off' := by
  by_cases hb : Backed n off
  · by_cases hb' : Backed n off'
    · have hne : off / 4 ≠ off' / 4 := fun heq => h (by have := hb.1; have := hb'.1; omega)
      rw [rfRead_backed _ hb', rfRead_backed _ hb', rfWrite_backed F v hb, Vector.getElem_set_ne _ _ hne]
    · rw [rfRead_unbacked _ hb', rfRead_unbacked _ hb']
  · rw [rfWrite_unbacked F v hb]

theorem rfRead_rfInit (off : Nat) : rfRead (rfInit n) off = 0 := by
  by_cases hb : Backed n off
  · rw [rfRead_backed _ hb]; simp [rfInit]
  · exact rfRead_unbacked _ hb

/-- Two files that read the same everywhere are the same. -/
theorem rf_ext {F G : RF n} (h : ∀ i, i < n → rfRead F (4 * i) = rfRead G (4 * i)) : F = G := by
  apply Vector.ext
  intro i hi
  have := h i hi
  rwa [rfRead_cell F hi, rfRead_cell G hi] at this

/-- Writing back what a file holds changes nothing. -/
theorem rfWrite_rfRead (F : RF n) (off : Nat) : rfWrite F off (rfRead F off) = F := by
  refine rf_ext fun i _ => ?_
  by_cases h : 4 * i = off
  · subst h
    by_cases hb : Backed n (4 * i)
    · rw [rfRead_rfWrite_same _ _ hb]
    · rw [rfWrite_unbacked _ _ hb]
  · rw [rfRead_rfWrite_other _ _ h]

/-- A restore of what was saved changes nothing (R117). -/
theorem rfRestore_rfSave (F : RF n) (order : List Nat) : rfRestore F order (rfSave F order) = F := by
  have key : ∀ os : List Nat, ((os.zip (os.map fun i => rfRead F (4 * i))).foldl
      (fun G p => rfWrite G (4 * p.1) p.2) F) = F := by
    intro os
    induction os with
    | nil => rfl
    | cons o os ih =>
      simp only [List.map_cons, List.zip_cons_cons, List.foldl_cons]
      rw [rfWrite_rfRead, ih]
  exact key order

/-- A restore changes only the cells its order names (R116). -/
theorem rfRead_rfRestore_other (F : RF n) (order : List Nat) (ws : List Word) {off : Nat}
    (h : ∀ i ∈ order, 4 * i ≠ off) : rfRead (rfRestore F order ws) off = rfRead F off := by
  unfold rfRestore
  induction order generalizing F ws with
  | nil => simp
  | cons o os ih =>
    cases ws with
    | nil => simp
    | cons w ws =>
      simp only [List.zip_cons_cons, List.foldl_cons]
      rw [ih (rfWrite F (4 * o) w) ws fun i hi => h i (List.mem_cons_of_mem _ hi)]
      exact rfRead_rfWrite_other _ _ (h o List.mem_cons_self).symm

/-- What a restore puts into a cell: the word of its position in the order (R116). -/
theorem rfRead_rfRestore_get (F : RF n) (order : List Nat) (ws : List Word) (hn : order.Nodup)
    (hb : ∀ i ∈ order, i < n) (hl : ws.length = order.length) (j : Nat) (hj : j < order.length) :
    rfRead (rfRestore F order ws) (4 * order[j]) = ws[j]'(hl ▸ hj) := by
  induction order generalizing F ws j with
  | nil => simp at hj
  | cons o os ih =>
    cases ws with
    | nil => simp at hl
    | cons w ws =>
      have hno : ∀ i ∈ os, 4 * i ≠ 4 * o := fun i hi heq =>
        (List.nodup_cons.mp hn).1 (Nat.eq_of_mul_eq_mul_left (by decide : 0 < 4) heq ▸ hi)
      cases j with
      | zero =>
        have : rfRestore F (o :: os) (w :: ws) = rfRestore (rfWrite F (4 * o) w) os ws := rfl
        simp only [this, List.getElem_cons_zero]
        rw [rfRead_rfRestore_other _ _ _ hno]
        have ho : o < n := hb o List.mem_cons_self
        exact rfRead_rfWrite_same _ _ ⟨by omega, by omega⟩
      | succ j =>
        have : rfRestore F (o :: os) (w :: ws) = rfRestore (rfWrite F (4 * o) w) os ws := rfl
        simp only [this, List.getElem_cons_succ]
        exact ih _ _ (List.nodup_cons.mp hn).2 (fun i hi => hb i (List.mem_cons_of_mem _ hi))
          (by simpa using hl) j (by simpa using hj)

/-- Restoring over one file what was saved from another gives the saved words in every cell the order names. -/
theorem rfRead_rfRestore_rfSave (F G : RF n) (order : List Nat) (hb : ∀ i ∈ order, i < n) {i : Nat} (hi : i ∈ order) :
    rfRead (rfRestore F order (rfSave G order)) (4 * i) = rfRead G (4 * i) := by
  unfold rfRestore rfSave
  induction order generalizing F with
  | nil => simp at hi
  | cons o os ih =>
    simp only [List.map_cons, List.zip_cons_cons, List.foldl_cons]
    by_cases hm : i ∈ os
    · exact ih _ (fun j hj => hb j (List.mem_cons_of_mem _ hj)) hm
    · have hio : i = o := by simpa [hm] using hi
      subst hio
      have := rfRead_rfRestore_other (rfWrite F (4 * i) (rfRead G (4 * i))) os
        (os.map fun i => rfRead G (4 * i)) (off := 4 * i)
        fun j hj heq => hm (Nat.eq_of_mul_eq_mul_left (by decide : 0 < 4) heq ▸ hj)
      refine this.trans (rfRead_rfWrite_same _ _ ⟨by omega, ?_⟩)
      have := hb i List.mem_cons_self
      omega

end Sys2Proof.Machine
end

