-- ==== Sys2Proof/Laws/State.lean ====
section
/-! SUPPORT. One lemma for each field and each update of State: what the update leaves in the field. -/

namespace Sys2Proof.Machine

variable (s : State)

@[simp] theorem State.setFsb_fsb (F : RF 256) : (s.setFsb F).fsb = F := rfl
@[simp] theorem State.setFsb_mu (F : RF 256) : (s.setFsb F).mu = s.mu := rfl
@[simp] theorem State.setFsb_sim (F : RF 256) : (s.setFsb F).sim = s.sim := rfl
@[simp] theorem State.setFsb_ts (F : RF 256) : (s.setFsb F).ts = s.ts := rfl
@[simp] theorem State.setFsb_halted (F : RF 256) : (s.setFsb F).halted = s.halted := rfl
@[simp] theorem State.setFsb_log (F : RF 256) : (s.setFsb F).log = s.log := rfl
@[simp] theorem State.setFsb_construction (F : RF 256) : (s.setFsb F).construction = s.construction := rfl
@[simp] theorem State.setFsb_constructed (F : RF 256) : (s.setFsb F).constructed = s.constructed := rfl
@[simp] theorem State.setFsb_launch (F : RF 256) : (s.setFsb F).launch = s.launch := rfl
@[simp] theorem State.setFsb_pending (F : RF 256) : (s.setFsb F).pending = s.pending := rfl
@[simp] theorem State.setFsb_firmware (F : RF 256) : (s.setFsb F).firmware = s.firmware := rfl
@[simp] theorem State.setFsb_resp (F : RF 256) : (s.setFsb F).resp = s.resp := rfl

@[simp] theorem State.setMu_fsb (F : RF 256) : (s.setMu F).fsb = s.fsb := rfl
@[simp] theorem State.setMu_mu (F : RF 256) : (s.setMu F).mu = F := rfl
@[simp] theorem State.setMu_sim (F : RF 256) : (s.setMu F).sim = s.sim := rfl
@[simp] theorem State.setMu_ts (F : RF 256) : (s.setMu F).ts = s.ts := rfl
@[simp] theorem State.setMu_halted (F : RF 256) : (s.setMu F).halted = s.halted := rfl
@[simp] theorem State.setMu_log (F : RF 256) : (s.setMu F).log = s.log := rfl
@[simp] theorem State.setMu_construction (F : RF 256) : (s.setMu F).construction = s.construction := rfl
@[simp] theorem State.setMu_constructed (F : RF 256) : (s.setMu F).constructed = s.constructed := rfl
@[simp] theorem State.setMu_launch (F : RF 256) : (s.setMu F).launch = s.launch := rfl
@[simp] theorem State.setMu_pending (F : RF 256) : (s.setMu F).pending = s.pending := rfl
@[simp] theorem State.setMu_firmware (F : RF 256) : (s.setMu F).firmware = s.firmware := rfl
@[simp] theorem State.setMu_resp (F : RF 256) : (s.setMu F).resp = s.resp := rfl

@[simp] theorem State.setSim_fsb (F : RF 44) : (s.setSim F).fsb = s.fsb := rfl
@[simp] theorem State.setSim_mu (F : RF 44) : (s.setSim F).mu = s.mu := rfl
@[simp] theorem State.setSim_sim (F : RF 44) : (s.setSim F).sim = F := rfl
@[simp] theorem State.setSim_ts (F : RF 44) : (s.setSim F).ts = s.ts := rfl
@[simp] theorem State.setSim_halted (F : RF 44) : (s.setSim F).halted = s.halted := rfl
@[simp] theorem State.setSim_log (F : RF 44) : (s.setSim F).log = s.log := rfl
@[simp] theorem State.setSim_construction (F : RF 44) : (s.setSim F).construction = s.construction := rfl
@[simp] theorem State.setSim_constructed (F : RF 44) : (s.setSim F).constructed = s.constructed := rfl
@[simp] theorem State.setSim_launch (F : RF 44) : (s.setSim F).launch = s.launch := rfl
@[simp] theorem State.setSim_pending (F : RF 44) : (s.setSim F).pending = s.pending := rfl
@[simp] theorem State.setSim_firmware (F : RF 44) : (s.setSim F).firmware = s.firmware := rfl
@[simp] theorem State.setSim_resp (F : RF 44) : (s.setSim F).resp = s.resp := rfl

@[simp] theorem State.setTs_fsb (t : Timestamp) : (s.setTs t).fsb = s.fsb := rfl
@[simp] theorem State.setTs_mu (t : Timestamp) : (s.setTs t).mu = s.mu := rfl
@[simp] theorem State.setTs_sim (t : Timestamp) : (s.setTs t).sim = s.sim := rfl
@[simp] theorem State.setTs_ts (t : Timestamp) : (s.setTs t).ts = t := rfl
@[simp] theorem State.setTs_halted (t : Timestamp) : (s.setTs t).halted = s.halted := rfl
@[simp] theorem State.setTs_log (t : Timestamp) : (s.setTs t).log = s.log := rfl
@[simp] theorem State.setTs_construction (t : Timestamp) : (s.setTs t).construction = s.construction := rfl
@[simp] theorem State.setTs_constructed (t : Timestamp) : (s.setTs t).constructed = s.constructed := rfl
@[simp] theorem State.setTs_launch (t : Timestamp) : (s.setTs t).launch = s.launch := rfl
@[simp] theorem State.setTs_pending (t : Timestamp) : (s.setTs t).pending = s.pending := rfl
@[simp] theorem State.setTs_firmware (t : Timestamp) : (s.setTs t).firmware = s.firmware := rfl
@[simp] theorem State.setTs_resp (t : Timestamp) : (s.setTs t).resp = s.resp := rfl

@[simp] theorem State.setHalted_fsb (b : Bool) : (s.setHalted b).fsb = s.fsb := rfl
@[simp] theorem State.setHalted_mu (b : Bool) : (s.setHalted b).mu = s.mu := rfl
@[simp] theorem State.setHalted_sim (b : Bool) : (s.setHalted b).sim = s.sim := rfl
@[simp] theorem State.setHalted_ts (b : Bool) : (s.setHalted b).ts = s.ts := rfl
@[simp] theorem State.setHalted_halted (b : Bool) : (s.setHalted b).halted = b := rfl
@[simp] theorem State.setHalted_log (b : Bool) : (s.setHalted b).log = s.log := rfl
@[simp] theorem State.setHalted_construction (b : Bool) : (s.setHalted b).construction = s.construction := rfl
@[simp] theorem State.setHalted_constructed (b : Bool) : (s.setHalted b).constructed = s.constructed := rfl
@[simp] theorem State.setHalted_launch (b : Bool) : (s.setHalted b).launch = s.launch := rfl
@[simp] theorem State.setHalted_pending (b : Bool) : (s.setHalted b).pending = s.pending := rfl
@[simp] theorem State.setHalted_firmware (b : Bool) : (s.setHalted b).firmware = s.firmware := rfl
@[simp] theorem State.setHalted_resp (b : Bool) : (s.setHalted b).resp = s.resp := rfl

@[simp] theorem State.setPending_fsb (rs : List Request) : (s.setPending rs).fsb = s.fsb := rfl
@[simp] theorem State.setPending_mu (rs : List Request) : (s.setPending rs).mu = s.mu := rfl
@[simp] theorem State.setPending_sim (rs : List Request) : (s.setPending rs).sim = s.sim := rfl
@[simp] theorem State.setPending_ts (rs : List Request) : (s.setPending rs).ts = s.ts := rfl
@[simp] theorem State.setPending_halted (rs : List Request) : (s.setPending rs).halted = s.halted := rfl
@[simp] theorem State.setPending_log (rs : List Request) : (s.setPending rs).log = s.log := rfl
@[simp] theorem State.setPending_construction (rs : List Request) : (s.setPending rs).construction = s.construction := rfl
@[simp] theorem State.setPending_constructed (rs : List Request) : (s.setPending rs).constructed = s.constructed := rfl
@[simp] theorem State.setPending_launch (rs : List Request) : (s.setPending rs).launch = s.launch := rfl
@[simp] theorem State.setPending_pending (rs : List Request) : (s.setPending rs).pending = rs := rfl
@[simp] theorem State.setPending_firmware (rs : List Request) : (s.setPending rs).firmware = s.firmware := rfl
@[simp] theorem State.setPending_resp (rs : List Request) : (s.setPending rs).resp = s.resp := rfl

@[simp] theorem State.setFirmware_fsb (f : Firmware) : (s.setFirmware f).fsb = s.fsb := rfl
@[simp] theorem State.setFirmware_mu (f : Firmware) : (s.setFirmware f).mu = s.mu := rfl
@[simp] theorem State.setFirmware_sim (f : Firmware) : (s.setFirmware f).sim = s.sim := rfl
@[simp] theorem State.setFirmware_ts (f : Firmware) : (s.setFirmware f).ts = s.ts := rfl
@[simp] theorem State.setFirmware_halted (f : Firmware) : (s.setFirmware f).halted = s.halted := rfl
@[simp] theorem State.setFirmware_log (f : Firmware) : (s.setFirmware f).log = s.log := rfl
@[simp] theorem State.setFirmware_construction (f : Firmware) : (s.setFirmware f).construction = s.construction := rfl
@[simp] theorem State.setFirmware_constructed (f : Firmware) : (s.setFirmware f).constructed = s.constructed := rfl
@[simp] theorem State.setFirmware_launch (f : Firmware) : (s.setFirmware f).launch = s.launch := rfl
@[simp] theorem State.setFirmware_pending (f : Firmware) : (s.setFirmware f).pending = s.pending := rfl
@[simp] theorem State.setFirmware_firmware (f : Firmware) : (s.setFirmware f).firmware = f := rfl
@[simp] theorem State.setFirmware_resp (f : Firmware) : (s.setFirmware f).resp = s.resp := rfl

@[simp] theorem State.setConstruction_fsb (c : Construction) : (s.setConstruction c).fsb = s.fsb := rfl
@[simp] theorem State.setConstruction_mu (c : Construction) : (s.setConstruction c).mu = s.mu := rfl
@[simp] theorem State.setConstruction_sim (c : Construction) : (s.setConstruction c).sim = s.sim := rfl
@[simp] theorem State.setConstruction_ts (c : Construction) : (s.setConstruction c).ts = s.ts := rfl
@[simp] theorem State.setConstruction_halted (c : Construction) : (s.setConstruction c).halted = s.halted := rfl
@[simp] theorem State.setConstruction_log (c : Construction) : (s.setConstruction c).log = s.log := rfl
@[simp] theorem State.setConstruction_construction (c : Construction) : (s.setConstruction c).construction = c := rfl
@[simp] theorem State.setConstruction_constructed (c : Construction) : (s.setConstruction c).constructed = (c == .done) := rfl
@[simp] theorem State.setConstruction_pending (c : Construction) : (s.setConstruction c).pending = s.pending := rfl
@[simp] theorem State.setConstruction_firmware (c : Construction) : (s.setConstruction c).firmware = s.firmware := rfl
@[simp] theorem State.setConstruction_resp (c : Construction) : (s.setConstruction c).resp = s.resp := rfl

@[simp] theorem State.setResp_fsb (r : Response) : (s.setResp r).fsb = s.fsb := rfl
@[simp] theorem State.setResp_mu (r : Response) : (s.setResp r).mu = s.mu := rfl
@[simp] theorem State.setResp_sim (r : Response) : (s.setResp r).sim = s.sim := rfl
@[simp] theorem State.setResp_ts (r : Response) : (s.setResp r).ts = s.ts := rfl
@[simp] theorem State.setResp_halted (r : Response) : (s.setResp r).halted = s.halted := rfl
@[simp] theorem State.setResp_log (r : Response) : (s.setResp r).log = s.log := rfl
@[simp] theorem State.setResp_construction (r : Response) : (s.setResp r).construction = s.construction := rfl
@[simp] theorem State.setResp_constructed (r : Response) : (s.setResp r).constructed = s.constructed := rfl
@[simp] theorem State.setResp_launch (r : Response) : (s.setResp r).launch = s.launch := rfl
@[simp] theorem State.setResp_pending (r : Response) : (s.setResp r).pending = s.pending := rfl
@[simp] theorem State.setResp_firmware (r : Response) : (s.setResp r).firmware = s.firmware := rfl
@[simp] theorem State.setResp_resp (r : Response) : (s.setResp r).resp = r := rfl

@[simp] theorem State.emit_fsb (e : Event) : (s.emit e).fsb = s.fsb := rfl
@[simp] theorem State.emit_mu (e : Event) : (s.emit e).mu = s.mu := rfl
@[simp] theorem State.emit_sim (e : Event) : (s.emit e).sim = s.sim := rfl
@[simp] theorem State.emit_ts (e : Event) : (s.emit e).ts = s.ts := rfl
@[simp] theorem State.emit_halted (e : Event) : (s.emit e).halted = s.halted := rfl
@[simp] theorem State.emit_log (e : Event) : (s.emit e).log = s.log ++ [e] := rfl
@[simp] theorem State.emit_construction (e : Event) : (s.emit e).construction = s.construction := rfl
@[simp] theorem State.emit_constructed (e : Event) : (s.emit e).constructed = s.constructed := rfl
@[simp] theorem State.emit_launch (e : Event) : (s.emit e).launch = s.launch := rfl
@[simp] theorem State.emit_pending (e : Event) : (s.emit e).pending = s.pending := rfl
@[simp] theorem State.emit_firmware (e : Event) : (s.emit e).firmware = s.firmware := rfl
@[simp] theorem State.emit_resp (e : Event) : (s.emit e).resp = s.resp := rfl

@[simp] theorem tick_low (t : Timestamp) : (tick t).low = t.low + 1 := rfl
@[simp] theorem tick_high (t : Timestamp) : (tick t).high = t.high := rfl

@[simp] theorem State.setConstruction_before_launch (l : Option Launch) : (s.setConstruction (.before l)).launch = l := rfl

theorem State.constructed_iff : s.constructed = true ↔ s.construction = .done := by simp [State.constructed]

/-- A constructed block has no CONSTRUCT waiting (R140). -/
theorem State.launch_of_constructed (h : s.constructed = true) : s.launch = none := by
  simp [State.launch, s.constructed_iff.mp h]

theorem State.Live.ready {s : State} (h : s.Live) : s.Ready := ⟨h.1, s.launch_of_constructed h.2⟩

/-! Setting a field twice keeps the last value, and setting it to what it holds changes nothing. -/

@[simp] theorem State.setPending_setPending (rs qs : List Request) : (s.setPending rs).setPending qs = s.setPending qs := rfl
@[simp] theorem State.setPending_self : s.setPending s.pending = s := rfl
@[simp] theorem State.setFirmware_self : s.setFirmware s.firmware = s := rfl
@[simp] theorem State.setResp_setResp (r q : Response) : (s.setResp r).setResp q = s.setResp q := rfl
@[simp] theorem State.setResp_self : s.setResp s.resp = s := rfl
@[simp] theorem State.setMu_self : s.setMu s.mu = s := rfl
@[simp] theorem State.setFsb_self : s.setFsb s.fsb = s := rfl
@[simp] theorem State.setSim_self : s.setSim s.sim = s := rfl
@[simp] theorem State.setTs_self : s.setTs s.ts = s := rfl

end Sys2Proof.Machine
end

