-- ==== Sys2Proof/Laws/Ops.lean ====
section
/-! SUPPORT. What the shared operations can do, said once each. -/

namespace Sys2Proof.Machine

variable {s t : State} {k : Result}

theorem unlessHalted_of_running (h : s.halted = false) : unlessHalted s k = k := by simp [unlessHalted, h]

theorem unlessHalted_of_halted (h : s.halted = true) : unlessHalted s k = .fault .runOver := by simp [unlessHalted, h]

/-- An operation of a device in a live state does what its rule says. -/
theorem onLive_of_live (h : s.Live) : onLive s k = k := by simp [onLive, unlessHalted, h.1, h.2]

theorem onLive_of_unbuilt (h : s.halted = false) (hc : s.constructed = false) :
    onLive s k = .refused .notConstructed := by simp [onLive, unlessHalted, h, hc]

/-- An operation of a device answers a next state only in a live state, and then the one of its rule. -/
theorem onLive_next_iff : onLive s k = .next t ↔ s.Live ∧ k = .next t := by
  cases hh : s.halted <;> cases hc : s.constructed <;> simp [onLive, unlessHalted, State.Live, hh, hc]

theorem unlessHalted_next_iff : unlessHalted s k = .next t ↔ s.halted = false ∧ k = .next t := by
  cases hh : s.halted <;> simp [unlessHalted, hh]

theorem completeRead_next_iff {w : Word} : completeRead s w = .next t ↔ t = s.setResp (.rdata w) := by
  simp [completeRead, eq_comm]

theorem completeWrite_next_iff : completeWrite s = .next t ↔ t = s.setResp .written := by
  simp [completeWrite, eq_comm]

/-- The two outcomes of the command decode (R93, R94). -/
theorem decodeCommand_cases (h : decodeCommand s = .next t) :
    (muCommand s.mu = cmdSystemReset ∧ t = (s.setHalted true).setResp (.halted cmdSystemReset)) ∨
    (muCommand s.mu ≠ cmdSystemReset ∧ t = (s.emit (.muCmd (muCommand s.mu))).setResp .written) := by
  unfold decodeCommand at h
  split at h
  · exact .inl ⟨‹_›, by simpa [enterHalt, eq_comm] using h⟩
  · exact .inr ⟨‹_›, by simpa [completeWrite, eq_comm] using h⟩

/-- The formula of R57 is the field `[23:16]` (R24). -/
theorem cmdId_eq_extract (w : Word) : cmdId w = w.extractLsb' 16 8 := by
  apply BitVec.eq_of_toNat_eq
  simp only [cmdId, BitVec.toNat_setWidth, BitVec.toNat_and, BitVec.toNat_ushiftRight, BitVec.extractLsb'_toNat]
  have h255 : BitVec.toNat (0xFF : Word) = 2 ^ 8 - 1 := by decide
  rw [h255, Nat.and_two_pow_sub_one_eq_mod]
  simp

/-- A transmit word's store leaves the identifier alone unless it is word 0 (R93). -/
theorem muCommand_rfWrite_other (mu : RF 256) (v : Word) {n : Nat} (h : n ≠ 0) :
    muCommand (rfWrite mu (trOffset n) v) = muCommand mu := by
  unfold muCommand
  rw [rfRead_rfWrite_other]
  simp only [trOffset]; omega

theorem muCommand_rfWrite_zero (mu : RF 256) (v : Word) : muCommand (rfWrite mu (trOffset 0) v) = cmdId v := by
  unfold muCommand
  rw [rfRead_rfWrite_same _ _ ⟨by decide, by decide⟩]

end Sys2Proof.Machine
end

