-- ==== Sys2Proof/Laws/Exec.lean ====
section
/-! SUPPORT. What an instruction, a host operation and a step can do, said once: each inversion lemma lists every case in
which the machine answers a next state. -/

namespace Sys2Proof.Machine

/-! ## Instructions -/

/-- The instruction changes no state of the block: it only answers. -/
def answersOnly (i : Instr) : Prop := i ≠ .tstmrRdLo ∧ gprWritten i = none ∧ isMuTransmit i = false

/-- The response of an instruction that changes no state is the read word or the completion of a write. -/
def Response.plain : Response → Prop
  | .rdata _ | .written => True
  | .none | .halted _ | .constructed | .saved _ | .restored => False

theorem readFsb_cases {off : Nat} {s t : State} (h : readFsb off s = .next t) :
    t = s.setResp (.rdata (rfRead s.fsb off)) := completeRead_next_iff.mp h

/-- Everything an instruction can do (R84 to R109). -/
theorem exec_cases {i : Instr} {s t : State} (h : exec i s = .next t) :
    s.Live ∧
    ((answersOnly i ∧ ∃ r : Response, r.plain ∧ t = s.setResp r) ∨
     (i = .tstmrRdLo ∧ t = (s.setTs (tick s.ts)).setResp (.rdata s.ts.low)) ∨
     (∃ k v, gprWritten i = some k ∧ isMuTransmit i = false ∧ i ≠ .tstmrRdLo ∧
        t = (s.setSim (rfWrite s.sim (gprOffset k) v)).setResp .written) ∨
     (∃ n v, i = .muWrTr n v ∧ decodeCommand (s.setMu (rfWrite s.mu (trOffset n.toNat) v)) = .next t)) := by
  cases i <;>
    simp only [exec, execFsbRd, execFsbRdZero, execFsbWr, execMuRdTsr, execMuRdRsr, execMuRdRr, execMuRdZero, execMuWrTr,
      execMuWrNop, execSim0RdStat, execSim0RdGprA, execSim0RdGprB, execSim0RdGprC, execSim0RdZero, execSim0WrGprA,
      execSim0WrGprB, execSim0WrGprC, execSim0WrNop, execTstmrRdLo, execTstmrRdHi, execTstmrRdZero, execTstmrWrNop,
      onLive_next_iff, readFsb, readRr, readGpr, writeGpr, readCounter, transmit, dropWrite, completeRead_next_iff,
      completeWrite_next_iff] at h <;>
    refine ⟨h.1, ?_⟩
  case tstmrRdLo => exact .inr (.inl ⟨rfl, h.2⟩)
  case sim0WrGprA => exact .inr (.inr (.inl ⟨_, _, rfl, rfl, by simp, h.2⟩))
  case sim0WrGprB => exact .inr (.inr (.inl ⟨_, _, rfl, rfl, by simp, h.2⟩))
  case sim0WrGprC => exact .inr (.inr (.inl ⟨_, _, rfl, rfl, by simp, h.2⟩))
  case muWrTr => exact .inr (.inr (.inr ⟨_, _, rfl, h.2⟩))
  all_goals
    refine .inl ⟨⟨by simp, rfl, rfl⟩, _, ?_, h.2⟩
    trivial

/-! ## Transactions -/

/-- A transaction that answers a next state was decoded, and its instruction answered it (R60, R128). -/
theorem busTransaction_cases {x : Transaction} {s t : State} (h : busTransaction x s = .next t) :
    s.Live ∧ ∃ i, decode x = .ok i ∧ exec i s = .next t := by
  obtain ⟨hl, hk⟩ := onLive_next_iff.mp h
  cases hd : decode x with
  | error e => simp [hd] at hk
  | ok i => exact ⟨hl, i, rfl, by simpa [hd] using hk⟩

theorem busTransaction_ok {x : Transaction} {i : Instr} {s : State} (hl : s.Live) (hd : decode x = .ok i) :
    busTransaction x s = exec i s := by
  rw [busTransaction, onLive_of_live hl, hd]

theorem busTransaction_error {x : Transaction} {e : DecodeError} {s : State} (hl : s.Live) (hd : decode x = .error e) :
    busTransaction x s = .refused (decodeRefusal e) := by
  rw [busTransaction, onLive_of_live hl, hd]

/-! ## Operations -/

/-- What a guest access can do: nothing outside the windows, else what the transaction made of it does (R55). -/
theorem guestAccess_cases {a : GuestAccess} {s t : State} (h : guestAccess systemBases a s = .next t) :
    s.halted = false ∧
    ((instrOf (.guest a) = none ∧ t = s) ∨
     (s.Live ∧ ∃ i, instrOf (.guest a) = some i ∧ exec i s = .next t)) := by
  obtain ⟨hh, hk⟩ := unlessHalted_next_iff.mp h
  refine ⟨hh, ?_⟩
  cases hr : route systemBases a.addr with
  | none =>
    simp only [hr, Host.Outcome.next.injEq] at hk
    exact .inl ⟨by simp [instrOf, deliveredTransaction, hr], hk.symm⟩
  | some p =>
    simp only [hr] at hk
    cases hka : a.kind <;> simp only [hka] at hk
    case fetch => exact absurd (unlessHalted_next_iff.mp hk).2 (by simp)
    all_goals
      obtain ⟨hl, i, hd, he⟩ := busTransaction_cases hk
      exact .inr ⟨hl, i, by simp only [instrOf, deliveredTransaction, hr, Option.bind_some, hka, hd], he⟩

/-- What CONSTRUCT can do (R112). -/
theorem opConstruct_cases {l : Launch} {s t : State} (h : opConstruct l s = .next t) :
    l.fuse.length = fuseWords ∧ fsbMapOk l.map = true ∧ t = built l s := by
  unfold opConstruct at h
  split at h
  · cases h
  · rename_i hl
    split at h
    · cases h
    · rename_i hm
      exact ⟨not_not.mp hl, by simpa using hm, (Host.Outcome.next.inj h).symm⟩

/-- What SAVE can do (R115). -/
theorem opSave_cases {d : Dev} {s t : State} (h : opSave d s = .next t) :
    s.Live ∧ t = s.setResp (.saved ⟨Config.snapVersion d, saveFields d s⟩) := by
  obtain ⟨hl, hk⟩ := onLive_next_iff.mp h
  exact ⟨hl, by simpa [eq_comm] using hk⟩

/-- What RESTORE can do (R116). -/
theorem opRestore_cases {d : Dev} {b : Blob} {s t : State} (h : opRestore d b s = .next t) :
    s.Live ∧ b.tag = Config.snapVersion d ∧ b.fields.length = snapWords d ∧
      t = (assignFields d b.fields s).setResp .restored := by
  obtain ⟨hl, hk⟩ := onLive_next_iff.mp h
  split at hk
  · simp at hk
  · rename_i hb
    simp only [not_or, ne_eq, not_not] at hb
    exact ⟨hl, hb.1, hb.2, by simpa [eq_comm] using hk⟩

/-- Everything an operation can do. -/
theorem perform_cases {r : Request} {s t : State} (h : perform r s = .next t) :
    s.halted = false ∧
    ((instrOf r = none ∧ (∀ d, isRestoreOf d r = false) ∧
        ∃ q : Response, (∀ id, q = .halted id → q = s.resp) ∧ t = s.setResp q) ∨
     (s.Live ∧ (∀ d, isRestoreOf d r = false) ∧ ∃ i, instrOf r = some i ∧ exec i s = .next t) ∨
     (s.Live ∧ ∃ d b, r = .restore d b ∧ b.tag = Config.snapVersion d ∧ b.fields.length = snapWords d ∧
        t = (assignFields d b.fields s).setResp .restored)) := by
  cases r <;> simp only [perform] at h
  case bus x =>
    obtain ⟨hl, i, hd, he⟩ := busTransaction_cases h
    exact ⟨hl.1, .inr (.inl ⟨hl, fun _ => rfl, i, by simp [instrOf, deliveredTransaction, hd], he⟩)⟩
  case guest a =>
    obtain ⟨hh, ⟨hn, ht⟩ | ⟨hl, i, hi, he⟩⟩ := guestAccess_cases h
    · exact ⟨hh, .inl ⟨hn, fun _ => rfl, s.resp, fun _ _ => rfl, ht.trans s.setResp_self.symm⟩⟩
    · exact ⟨hh, .inr (.inl ⟨hl, fun _ => rfl, i, hi, he⟩)⟩
  case fetch d off => exact absurd (unlessHalted_next_iff.mp h).2 (by simp)
  case save d =>
    obtain ⟨hl, ht⟩ := opSave_cases h
    exact ⟨hl.1, .inl ⟨rfl, fun _ => rfl, _, fun _ hq => Response.noConfusion hq, ht⟩⟩
  case restore d b =>
    obtain ⟨hl, htag, hlen, ht⟩ := opRestore_cases h
    exact ⟨hl.1, .inr (.inr ⟨hl, d, b, rfl, htag, hlen, ht⟩)⟩

/-! ## The firmware -/

@[simp] theorem afterLine_next (l : Line) (t : State) : afterLine l (.next t) = .next (advance l t) := rfl
@[simp] theorem afterLine_fault (l : Line) (r : Fault) : afterLine l (.fault r) = .fault r := rfl
@[simp] theorem afterLine_refused (l : Line) (r : Refusal) : afterLine l (.refused r) = .refused r := rfl

/-- A line goes on only where its transaction answered a next state. -/
theorem afterLine_next_iff {l : Line} {o : Result} {t : State} :
    afterLine l o = .next t ↔ ∃ u, o = .next u ∧ t = advance l u := by
  cases o <;> simp [eq_comm]

/-- Going on moves the firmware and nothing else. -/
theorem advance_eq (l : Line) (t : State) :
    advance l t = t.setFirmware ⟨t.firmware.lines, l.target t.resp⟩ := rfl

@[simp] theorem advance_fsb (l : Line) (t : State) : (advance l t).fsb = t.fsb := rfl
@[simp] theorem advance_mu (l : Line) (t : State) : (advance l t).mu = t.mu := rfl
@[simp] theorem advance_sim (l : Line) (t : State) : (advance l t).sim = t.sim := rfl
@[simp] theorem advance_ts (l : Line) (t : State) : (advance l t).ts = t.ts := rfl
@[simp] theorem advance_halted (l : Line) (t : State) : (advance l t).halted = t.halted := rfl
@[simp] theorem advance_log (l : Line) (t : State) : (advance l t).log = t.log := rfl
@[simp] theorem advance_construction (l : Line) (t : State) : (advance l t).construction = t.construction := rfl
@[simp] theorem advance_constructed (l : Line) (t : State) : (advance l t).constructed = t.constructed := rfl
@[simp] theorem advance_launch (l : Line) (t : State) : (advance l t).launch = t.launch := rfl
@[simp] theorem advance_pending (l : Line) (t : State) : (advance l t).pending = t.pending := rfl
@[simp] theorem advance_resp (l : Line) (t : State) : (advance l t).resp = t.resp := rfl
@[simp] theorem advance_firmware (l : Line) (t : State) :
    (advance l t).firmware = ⟨t.firmware.lines, l.target t.resp⟩ := rfl

/-- A line whose target is where the firmware stands leaves it there. -/
theorem advance_of_target {l : Line} {t : State} (h : l.target t.resp = t.firmware.pos) : advance l t = t := by
  rw [advance_eq, h]
  rfl

/-! ## Steps -/

/-- A step of a block whose host calls for CONSTRUCT performs it (R140). -/
theorem step_of_launch {s : State} {l : Launch} (hh : s.halted = false) (hl : s.launch = some l) :
    step s = opConstruct l s := by
  rw [step, issueNext, unlessHalted_of_running hh, hl]

/-- A step with no CONSTRUCT called for is the next operation of the trace. -/
theorem step_of_ready {s : State} (h : s.Ready) : step s = issueOperation s := by
  rw [step, issueNext, unlessHalted_of_running h.1, h.2]

/-- A step with an operation issued performs it. -/
theorem step_of_pending {s : State} {r : Request} {rest : List Request} (h : s.Ready) (hp : s.pending = r :: rest) :
    step s = perform r (s.setPending rest) := by
  rw [step_of_ready h, issueOperation, hp]

/-- A step that issues `r` performs it in the state it was issued in. -/
theorem step_issuing {s : State} (r : Request) (h : s.Ready) : step (s.issuing r) = perform r s :=
  step_of_pending (s := s.issuing r) h rfl

/-- A step with nothing else issued is the firmware's line. -/
theorem step_of_firmware {s : State} {l : Line} (hl : s.Live) (hp : s.pending = []) (hf : s.firmware.current = some l) :
    step s = afterLine l (busTransaction l.op s) := by
  rw [step_of_ready hl.ready, issueOperation, hp]
  simp [runFirmware, hf, perform]

/-- Everything a step can do: CONSTRUCT where it is called for; nothing where nothing is issued; else the next operation,
the first one issued or the firmware's (R17, R43, R122, R140). -/
theorem step_cases {s t : State} (h : step s = .next t) :
    s.halted = false ∧
    ((∃ l, s.launch = some l ∧ l.fuse.length = fuseWords ∧ fsbMapOk l.map = true ∧ t = built l s) ∨
     (s.pending = [] ∧ s.firmware.current = none ∧ t = s) ∨
     (∃ r rest, s.pending = r :: rest ∧ perform r (s.setPending rest) = .next t) ∨
     ∃ l u, s.pending = [] ∧ s.firmware.current = some l ∧ perform (.bus l.op) s = .next u ∧ t = advance l u) := by
  obtain ⟨hh, hk⟩ := unlessHalted_next_iff.mp h
  refine ⟨hh, ?_⟩
  cases hl : s.launch with
  | some l =>
    rw [step_of_launch hh hl] at h
    exact .inl ⟨l, rfl, opConstruct_cases h⟩
  | none =>
    rw [step_of_ready ⟨hh, hl⟩, issueOperation] at h
    refine .inr ?_
    cases hp : s.pending with
    | cons r rest => exact .inr (.inl ⟨r, rest, rfl, by simpa [hp] using h⟩)
    | nil =>
      simp only [hp, runFirmware] at h
      cases hf : s.firmware.current with
      | none => exact .inl ⟨rfl, rfl, by simpa [hf, eq_comm] using h⟩
      | some l =>
        simp only [hf] at h
        obtain ⟨u, hu, ht⟩ := afterLine_next_iff.mp h
        exact .inr (.inr ⟨l, u, rfl, rfl, hu, ht⟩)

/-- What no operation touches: that the block is constructed, what is issued, and the firmware (R10, R140). -/
theorem perform_keeps {r : Request} {s t : State} (h : perform r s = .next t) :
    t.construction = s.construction ∧ t.pending = s.pending ∧ t.firmware = s.firmware := by
  obtain ⟨_, ⟨_, _, q, _, rfl⟩ | ⟨_, _, i, _, he⟩ | ⟨_, d, b, _, _, _, rfl⟩⟩ := perform_cases h
  · exact ⟨rfl, rfl, rfl⟩
  · obtain ⟨_, ⟨_, q, _, rfl⟩ | ⟨_, rfl⟩ | ⟨k, v, _, _, _, rfl⟩ | ⟨n, v, _, hd⟩⟩ := exec_cases he
    · exact ⟨rfl, rfl, rfl⟩
    · exact ⟨rfl, rfl, rfl⟩
    · exact ⟨rfl, rfl, rfl⟩
    · obtain ⟨_, rfl⟩ | ⟨_, rfl⟩ := decodeCommand_cases hd <;> exact ⟨rfl, rfl, rfl⟩
  · cases d <;> exact ⟨rfl, rfl, rfl⟩

/-- A step of a constructed block performs its next operation, off the queue where it was issued, and moves at most the
firmware besides, which it leaves where it is unless the operation is the firmware's own. -/
theorem step_of_nextRequest {s t : State} {r : Request} (hc : s.constructed = true) (hr : s.nextRequest = some r)
    (h : step s = .next t) :
    ∃ u, perform r (s.setPending s.pending.tail) = .next u ∧
      ((s.pending ≠ [] ∧ t = u) ∨ ∃ l, s.pending = [] ∧ s.firmware.current = some l ∧ r = .bus l.op ∧ t = advance l u) := by
  obtain ⟨_, ⟨l, hl, _⟩ | ⟨hp, hf, _⟩ | ⟨q, rest, hp, hq⟩ | ⟨l, u, hp, hf, hu, ht⟩⟩ := step_cases h
  · simp [s.launch_of_constructed hc] at hl
  · simp [State.nextRequest, hp, hf] at hr
  · simp only [State.nextRequest, hp, Option.some.injEq] at hr
    subst hr
    exact ⟨t, by rwa [hp], .inl ⟨by simp [hp], rfl⟩⟩
  · simp only [State.nextRequest, hp, hf, Option.map_some, Option.some.injEq] at hr
    subst hr
    have hs : s.setPending [] = s := by rw [← hp, s.setPending_self]
    exact ⟨u, by rw [hp, List.tail_nil, hs]; exact hu, .inr ⟨l, hp, hf, rfl, ht⟩⟩

/-! ## Runs -/

theorem runsTo_zero {s t : State} : RunsTo s 0 t ↔ t = s :=
  ⟨fun h => (Host.Outcome.next.inj h).symm, fun h => congrArg Host.Outcome.next h.symm⟩

theorem run_succ_next {M : Host.Core} {s u : M.State} {k : Nat} (h : M.step s = .next u) :
    M.run (k + 1) s = M.run k u := by rw [Host.Core.run, h]

theorem run_succ_fault {M : Host.Core} {s : M.State} {r : M.Fault} {k : Nat} (h : M.step s = .fault r) :
    M.run (k + 1) s = .fault r := by rw [Host.Core.run, h]

theorem run_succ_refused {M : Host.Core} {s : M.State} {r : M.Refusal} {k : Nat} (h : M.step s = .refused r) :
    M.run (k + 1) s = .refused r := by rw [Host.Core.run, h]

/-- A run of `k + 1` steps is a step and a run of `k` steps. -/
theorem runsTo_succ {s t : State} {k : Nat} : RunsTo s (k + 1) t ↔ ∃ u, step s = .next u ∧ RunsTo u k t := by
  unfold RunsTo
  cases hs : step s with
  | next u =>
    rw [run_succ_next (M := Sys2Proof.core) hs]
    exact ⟨fun h => ⟨u, rfl, h⟩, fun ⟨_, hu, h⟩ => Host.Outcome.next.inj hu ▸ h⟩
  | fault r =>
    rw [run_succ_fault (M := Sys2Proof.core) hs]
    exact ⟨(by rintro ⟨⟩), by rintro ⟨_, ⟨⟩, _⟩⟩
  | refused r =>
    rw [run_succ_refused (M := Sys2Proof.core) hs]
    exact ⟨(by rintro ⟨⟩), by rintro ⟨_, ⟨⟩, _⟩⟩

/-! ## What a run performs -/

@[simp] theorem performed_zero (s : State) : performed 0 s = [] := rfl

theorem performed_succ {s t : State} {k : Nat} (h : step s = .next t) :
    performed (k + 1) s = s.nextRequest.toList ++ performed k t := by rw [performed, h]

/-- A step of a constructed block with no next operation leaves everything. -/
theorem step_of_noRequest {s t : State} (hc : s.constructed = true) (hr : s.nextRequest = none) (h : step s = .next t) :
    t = s := by
  obtain ⟨_, ⟨l, hl, _⟩ | ⟨_, _, ht⟩ | ⟨q, rest, hp, _⟩ | ⟨l, u, hp, hf, _⟩⟩ := step_cases h
  · simp [s.launch_of_constructed hc] at hl
  · exact ht
  · simp [State.nextRequest, hp] at hr
  · simp [State.nextRequest, hp, hf] at hr

/-- The next operation of a constructed block leaves it constructed (R140). -/
theorem constructed_of_nextRequest {s t : State} {r : Request} (hc : s.constructed = true) (hr : s.nextRequest = some r)
    (h : step s = .next t) : t.constructed = true := by
  obtain ⟨u, hu, hd⟩ := step_of_nextRequest hc hr h
  have hk : u.construction = s.construction := (perform_keeps hu).1
  have huc : u.constructed = true := by rw [State.constructed_iff, hk, ← State.constructed_iff, hc]
  obtain ⟨_, rfl⟩ | ⟨l, _, _, _, rfl⟩ := hd <;> exact huc

/-- A relation that every allowed step keeps holds along a run of allowed operations: the induction over runs, once.
`R l s t` is what the operations `l` have done from `s` to `t`. -/
theorem run_induction {ok : Request → Prop} {R : List Request → State → State → Prop} (hnil : ∀ s, R [] s s)
    (hstep : ∀ s u t r l, s.constructed = true → s.nextRequest = some r → ok r → step s = .next u →
      u.constructed = true → R l u t → R (r :: l) s t) :
    ∀ (k : Nat) (s t : State), s.constructed = true → (∀ r ∈ performed k s, ok r) → RunsTo s k t →
      t.constructed = true ∧ R (performed k s) s t := by
  intro k
  induction k with
  | zero =>
    intro s t hc _ h
    rw [runsTo_zero] at h
    subst h
    exact ⟨hc, hnil _⟩
  | succ k ih =>
    intro s t hc hok h
    obtain ⟨u, hu, hrun⟩ := runsTo_succ.mp h
    rw [performed_succ hu] at hok ⊢
    cases hr : s.nextRequest with
    | none =>
      obtain rfl := step_of_noRequest hc hr hu
      simp only [hr, Option.toList_none, List.nil_append] at hok ⊢
      exact ih _ _ hc hok hrun
    | some r =>
      simp only [hr, Option.toList_some, List.cons_append, List.nil_append, List.mem_cons, forall_eq_or_imp] at hok ⊢
      have hcu := constructed_of_nextRequest hc hr hu
      obtain ⟨hct, hR⟩ := ih u t hcu hok.2 hrun
      exact ⟨hct, hstep s u t r _ hc hr hok.1 hu hcu hR⟩

end Sys2Proof.Machine
end

