-- ==== Sys2Proof/Laws/FsbLoad.lean ====
section
/-! SUPPORT. What the copy of one table entry does (R81). -/

namespace Sys2Proof.Machine

/-- The last `k` words of an entry stand in their destination cells; every other cell is as before (R81). -/
theorem rfRead_copyWords (fuse : List Word) (e : FsbEntry) (he : e.dst + e.len ≤ 256) (k : Nat) (F : RF 256)
    (hk : k ≤ e.len) (j : Nat) :
    rfRead (copyWords fuse e k F) (4 * j) =
      if e.dst + (e.len - k) ≤ j ∧ j < e.dst + e.len then fuse.getD (e.src + (j - e.dst)) 0 else rfRead F (4 * j) := by
  induction k generalizing F with
  | zero =>
    rw [if_neg (by omega)]
    rfl
  | succ k ih =>
    rw [copyWords, ih _ (by omega)]
    by_cases h : e.dst + (e.len - k) ≤ j ∧ j < e.dst + e.len
    · rw [if_pos h, if_pos (by omega)]
    · rw [if_neg h]
      by_cases h' : j = e.dst + (e.len - (k + 1))
      · subst h'
        rw [rfRead_rfWrite_same _ _ ⟨by omega, by omega⟩, if_pos (by omega)]
        congr 2
        omega
      · rw [rfRead_rfWrite_other _ _ (by omega), if_neg (by omega)]

/-- The copy of a whole entry (R81). -/
theorem rfRead_copyEntry (fuse : List Word) (e : FsbEntry) (he : e.dst + e.len ≤ 256) (F : RF 256) (j : Nat) :
    rfRead (copyWords fuse e e.len F) (4 * j) =
      if e.dst ≤ j ∧ j < e.dst + e.len then fuse.getD (e.src + (j - e.dst)) 0 else rfRead F (4 * j) := by
  rw [rfRead_copyWords fuse e he e.len F (Nat.le_refl _) j, Nat.sub_self, Nat.add_zero]

/-- An admitted table keeps to the register file (R82 (2)). -/
theorem entryInRange_dst {e : FsbEntry} (h : entryInRange e = true) : e.dst + e.len ≤ 256 := by
  simp only [entryInRange, Bool.and_eq_true, decide_eq_true_eq] at h
  exact h.2

end Sys2Proof.Machine
end

