-- ==== Sys2Proof/Laws/HostOps.lean ====
section
/-! SUPPORT. The snapshot order of the mailbox, what a restore leaves alone, and the launch inputs at reset. -/

namespace Sys2Proof.Machine

/-- The declared order of R20 is the index order of the first 191 cells (R80, R115). -/
theorem muOrder_eq_range : muOrder = List.range 191 := by decide +kernel

/-- The table that stands in for an unusable one meets R82. -/
theorem bootFsbMap_ok : fsbMapOk bootFsbMap = true := by
  unfold bootFsbMap
  split
  · assumption
  · decide

theorem bootFuse_length : bootFuse.length = fuseWords := by simp [bootFuse]

theorem bootFuse_getD {p : Nat} (h : p < fuseWords) : bootFuse.getD p 0 = Config.fuseWord p := by
  simp [bootFuse, List.getD, h]

variable (d : Dev) (ws : List Word) (s : State)

@[simp] theorem assignFields_log : (assignFields d ws s).log = s.log := by cases d <;> rfl
@[simp] theorem assignFields_halted : (assignFields d ws s).halted = s.halted := by cases d <;> rfl
@[simp] theorem assignFields_constructed : (assignFields d ws s).constructed = s.constructed := by cases d <;> rfl
@[simp] theorem assignFields_construction : (assignFields d ws s).construction = s.construction := by cases d <;> rfl
@[simp] theorem assignFields_launch : (assignFields d ws s).launch = s.launch := by cases d <;> rfl
@[simp] theorem assignFields_firmware : (assignFields d ws s).firmware = s.firmware := by cases d <;> rfl
@[simp] theorem assignFields_pending : (assignFields d ws s).pending = s.pending := by cases d <;> rfl
@[simp] theorem assignFields_resp : (assignFields d ws s).resp = s.resp := by cases d <;> rfl

/-- `SAVE` gives as many words as `RESTORE` asks for (R115, R116). -/
theorem saveFields_length : (saveFields d s).length = snapWords d := by
  cases d <;> simp [saveFields, rfSave, muOrder_eq_range, snapWords]

/-- Assigning a device its own saved fields changes nothing (R117). -/
theorem assignFields_saveFields : assignFields d (saveFields d s) s = s := by
  cases d
  case tstmr => rfl
  all_goals simp [assignFields, saveFields, rfRestore_rfSave]

end Sys2Proof.Machine
end

