-- ==== Sys2Proof/Laws/PerInstr.lean ====
section
/-! SUPPORT. The family HeaderFields: the header of each instruction addresses its device (R55) and passes the refusal
checks of R60. -/

namespace Sys2Proof.Laws.HeaderFields

/-- The encoding of `i` is a transaction of its device that no check of R60 refuses. -/
def Statement (i : Instr) : Prop :=
  headerDev i.header = i.dev ∧ checkTransaction (encode i) = none

/-- What a row's match value says of every header of the row: its device, `R = 0`, alignment, no bit of `OFF` from bit
`k` up, and a window of at least `2 ^ k` bytes. -/
abbrev RowBits (m : Header) (d : Dev) (k : Nat) : Prop :=
  headerDev m = d ∧ headerR m = false ∧ m.extractLsb' 0 2 = 0 ∧ 2 ^ k ≤ d.span ∧
    (∀ j, j < 12 → k ≤ j → m.getLsbD j = false)

/-- An instruction whose header is a row's match value with a field in it. -/
theorem of_row {n k : Nat} {m : Header} {d : Dev} (x : BitVec n) {i : Instr} (hi : i.header = m ||| fieldAt2 x)
    (hd : i.dev = d) (hn : n + 2 ≤ k) (hk : k ≤ 12) (h : RowBits m d k) : Statement i := by
  obtain ⟨h1, h2, h3, h4, h5⟩ := h
  refine ⟨?_, ?_⟩
  · rw [hi, hd, headerDev_or_fieldAt2 m x (by omega), h1]
  · rw [encode, hi]
    exact checkTransaction_or_fieldAt2 m x _ hn hk (fun j hj hj' => h5 j hj' hj) h2 h3 (h1 ▸ h4)

theorem fsbRd (i : BitVec 8) : Statement (.fsbRd i) :=
  of_row (m := 0x0000) (d := .fsb) (k := 10) i rfl rfl (by decide) (by decide) (by decide)
theorem fsbRdZero (o : BitVec 8) : Statement (.fsbRdZero o) :=
  of_row (m := 0x0400) (d := .fsb) (k := 11) o rfl rfl (by decide) (by decide) (by decide)
theorem fsbWr (o : BitVec 9) (v : Word) : Statement (.fsbWr o v) :=
  of_row (m := 0x2000) (d := .fsb) (k := 11) o rfl rfl (by decide) (by decide) (by decide)
theorem muRdTsr : Statement .muRdTsr := ⟨by decide, by decide⟩
theorem muRdRsr : Statement .muRdRsr := ⟨by decide, by decide⟩
theorem muRdRr (n : BitVec 2) : Statement (.muRdRr n) :=
  of_row (m := 0x4280) (d := .mu) (k := 12) n rfl rfl (by decide) (by decide) (by decide)
theorem muRdZero (o : BitVec 10) : Statement (.muRdZero o) :=
  of_row (m := 0x4000) (d := .mu) (k := 12) o rfl rfl (by decide) (by decide) (by decide)
theorem muWrTr (n : BitVec 3) (v : Word) : Statement (.muWrTr n v) :=
  of_row (m := 0x6200) (d := .mu) (k := 12) n rfl rfl (by decide) (by decide) (by decide)
theorem muWrNop (o : BitVec 10) (v : Word) : Statement (.muWrNop o v) :=
  of_row (m := 0x6000) (d := .mu) (k := 12) o rfl rfl (by decide) (by decide) (by decide)
theorem sim0RdStat : Statement .sim0RdStat := ⟨by decide, by decide⟩
theorem sim0RdGprA (i : BitVec 2) : Statement (.sim0RdGprA i) :=
  of_row (m := 0x8010) (d := .sim0) (k := 12) i rfl rfl (by decide) (by decide) (by decide)
theorem sim0RdGprB (i : BitVec 2) : Statement (.sim0RdGprB i) :=
  of_row (m := 0x8020) (d := .sim0) (k := 12) i rfl rfl (by decide) (by decide) (by decide)
theorem sim0RdGprC (i : BitVec 1) : Statement (.sim0RdGprC i) :=
  of_row (m := 0x8030) (d := .sim0) (k := 12) i rfl rfl (by decide) (by decide) (by decide)
theorem sim0RdZero (o : BitVec 10) : Statement (.sim0RdZero o) :=
  of_row (m := 0x8000) (d := .sim0) (k := 12) o rfl rfl (by decide) (by decide) (by decide)
theorem sim0WrGprA (i : BitVec 2) (v : Word) : Statement (.sim0WrGprA i v) :=
  of_row (m := 0xA010) (d := .sim0) (k := 12) i rfl rfl (by decide) (by decide) (by decide)
theorem sim0WrGprB (i : BitVec 2) (v : Word) : Statement (.sim0WrGprB i v) :=
  of_row (m := 0xA020) (d := .sim0) (k := 12) i rfl rfl (by decide) (by decide) (by decide)
theorem sim0WrGprC (i : BitVec 1) (v : Word) : Statement (.sim0WrGprC i v) :=
  of_row (m := 0xA030) (d := .sim0) (k := 12) i rfl rfl (by decide) (by decide) (by decide)
theorem sim0WrNop (o : BitVec 10) (v : Word) : Statement (.sim0WrNop o v) :=
  of_row (m := 0xA000) (d := .sim0) (k := 12) o rfl rfl (by decide) (by decide) (by decide)
theorem tstmrRdLo : Statement .tstmrRdLo := ⟨by decide, by decide⟩
theorem tstmrRdHi : Statement .tstmrRdHi := ⟨by decide, by decide⟩
theorem tstmrRdZero (o : BitVec 8) : Statement (.tstmrRdZero o) :=
  of_row (m := 0xC000) (d := .tstmr) (k := 10) o rfl rfl (by decide) (by decide) (by decide)
theorem tstmrWrNop (o : BitVec 8) (v : Word) : Statement (.tstmrWrNop o v) :=
  of_row (m := 0xE000) (d := .tstmr) (k := 10) o rfl rfl (by decide) (by decide) (by decide)

end Sys2Proof.Laws.HeaderFields
end

