-- ==== Sys2Proof/Tests/Slice0.lean ====
section
/-! SUPPORT. The model's own tests: what WellFormed refuses, the spec's words through the decoder, the spec's vectors
(95_test_vectors.md) one step at a time, and for each obligation a witness of its hypotheses. -/

namespace Sys2Proof.Tests

open Sys2Proof.Machine

-- One theorem at a time: elaborated side by side, these many small evaluations reserve a thread's memory each.
set_option Elab.async false

/-! ## Helpers -/

/-- The operation answers a next state of which `p` holds. -/
def nextIs (p : State → Bool) : Result → Bool
  | .next s => p s
  | .fault _ | .refused _ => false

/-- The operation is refused for the reason `r`. -/
def refusedFor (r : Refusal) : Result → Bool
  | .refused q => q == r
  | .next _ | .fault _ => false

theorem next_of_nextIs {p : State → Bool} {o : Result} (h : nextIs p o = true) : ∃ t, o = .next t ∧ p t = true := by
  cases o with
  | next t => exact ⟨t, rfl, h⟩
  | fault r => cases h
  | refused r => cases h

/-- Two files that read differently somewhere differ. -/
theorem rf_ne {n : Nat} {F G : RF n} {off : Nat} (h : (rfRead F off == rfRead G off) = false) : F ≠ G := by
  rintro rfl
  simp at h

/-- The fuse array of `S0F` (95_test_vectors.md section 2.3). -/
def fuseS0F : List Word :=
  List.replicate 24 0xEE ++ [0x11, 0x12, 0x13, 0x14, 0x15, 0x16, 0x17, 0x18] ++ List.replicate 264 0xEE ++
    [0xF0, 0xF1, 0xF2, 0xF3, 0xF4, 0xF5, 0xF6, 0xF7] ++ List.replicate 208 0xEE

/-- A copy table that R82 admits; only its pinned entries are the spec's. -/
def mapS0F : List FsbEntry := [⟨24, 8, 0⟩, ⟨296, 8, 96⟩, ⟨0, 8, 8⟩, ⟨8, 8, 16⟩, ⟨32, 32, 32⟩, ⟨64, 64, 128⟩]

/-- A constructed block whose counter starts at 5 and whose devices hold nothing. -/
def base : State := { State.unbuilt with construction := .done, ts := ⟨5, 0⟩ }

/-- `base` with a command word in transmit word 0. -/
def withTr0 (v : Word) : State := base.setMu (rfWrite base.mu 0x200 v)

/-- One transaction issued from `s`. -/
def bus (s : State) (t : Transaction) : Result := step (s.issuing (.bus t))

/-- Line 0 of a firmware: poll receive word 0 until it is no longer 0. -/
def waitRr : Line := { op := .rd .mu 0x280, mask := 0xFFFFFFFF, value := 0, hit := 0, miss := 1 }

/-- Line 0 of a firmware: read the counter for ever. -/
def readLo : Line := { op := .rd .tstmr 0, mask := 0, value := 0, hit := 0, miss := 0 }

def answers (w : Word) (s : State) : Bool := s.resp == .rdata w

/-! ## WellFormed refuses each ill-formed term -/

theorem test_illFormed_muRdZero_tsr : (Instr.muRdZero 0x049).wellFormed = false := by decide
theorem test_illFormed_muRdZero_rsr : (Instr.muRdZero 0x04B).wellFormed = false := by decide
theorem test_illFormed_muRdZero_rr : (Instr.muRdZero 0x0A3).wellFormed = false := by decide
theorem test_illFormed_muWrNop_tr : (Instr.muWrNop 0x087 0).wellFormed = false := by decide
theorem test_illFormed_sim0RdZero_stat : (Instr.sim0RdZero 0x002).wellFormed = false := by decide
theorem test_illFormed_sim0RdZero_gpr : (Instr.sim0RdZero 0x00D).wellFormed = false := by decide
theorem test_illFormed_sim0WrNop_gpr : (Instr.sim0WrNop 0x004 0).wellFormed = false := by decide
theorem test_illFormed_tstmrRdZero_lo : (Instr.tstmrRdZero 0).wellFormed = false := by decide
theorem test_illFormed_tstmrRdZero_hi : (Instr.tstmrRdZero 1).wellFormed = false := by decide
theorem test_illFormed_nineGprs_rd : (Instr.sim0RdGprC 1).wellFormedWith .nine = false := by decide
theorem test_illFormed_nineGprs_wr : (Instr.sim0WrGprC 1 0).wellFormedWith .nine = false := by decide
theorem test_wellFormed_neighbours : (Instr.muRdZero 0x0A4).wellFormed = true ∧ (Instr.muWrNop 0x088 0).wellFormed = true ∧
    (Instr.sim0RdZero 0x00E).wellFormed = true ∧ (Instr.sim0WrNop 0x002 0).wellFormed = true ∧
    (Instr.sim0RdGprC 1).wellFormed = true ∧ (Instr.tstmrRdZero 2).wellFormed = true := by decide

/-! ## Words of every row, written out from R61 to R64 (fields: DEV, W, R, OFF) -/

/-- DEC-15. -/
theorem test_decode_fsbRd : decode ⟨0b00_0_0_001111111100, 4, 0⟩ = .ok (.fsbRd 255) := by rfl
/-- DEC-13. -/
theorem test_decode_fsbRdZero : decode ⟨0b00_0_0_011111111100, 4, 0⟩ = .ok (.fsbRdZero 0xFF) := by rfl
/-- DEC-14. -/
theorem test_decode_fsbWr : decode ⟨0b00_1_0_011111111100, 4, 1⟩ = .ok (.fsbWr 0x1FF 1) := by rfl
/-- DEC-1. -/
theorem test_decode_muRdTsr : decode ⟨0b01_0_0_000100100100, 4, 0⟩ = .ok (.muRdTsr) := by rfl
/-- R62. -/
theorem test_decode_muRdRsr : decode ⟨0b01_0_0_000100101100, 4, 0⟩ = .ok (.muRdRsr) := by rfl
/-- DEC-3. -/
theorem test_decode_muRdRr : decode ⟨0b01_0_0_001010001100, 4, 0⟩ = .ok (.muRdRr 3) := by rfl
/-- DEC-4. -/
theorem test_decode_muRdZero : decode ⟨0b01_0_0_001010010000, 4, 0⟩ = .ok (.muRdZero 0x0A4) := by rfl
/-- DEC-5. -/
theorem test_decode_muWrTr : decode ⟨0b01_1_0_001000011100, 4, 0⟩ = .ok (.muWrTr 7 0) := by rfl
/-- DEC-6. -/
theorem test_decode_muWrNop : decode ⟨0b01_1_0_001000100000, 4, 0⟩ = .ok (.muWrNop 0x088 0) := by rfl
/-- SIM-1. -/
theorem test_decode_sim0RdStat : decode ⟨0b10_0_0_000000001000, 4, 0⟩ = .ok (.sim0RdStat) := by rfl
/-- SIM-4. -/
theorem test_decode_sim0RdGprA : decode ⟨0b10_0_0_000000010100, 4, 0⟩ = .ok (.sim0RdGprA 1) := by rfl
/-- SIM-10. -/
theorem test_decode_sim0RdGprB : decode ⟨0b10_0_0_000000101100, 4, 0⟩ = .ok (.sim0RdGprB 3) := by rfl
/-- DEC-7. -/
theorem test_decode_sim0RdGprC : decode ⟨0b10_0_0_000000110100, 4, 0⟩ = .ok (.sim0RdGprC 1) := by rfl
/-- DEC-8. -/
theorem test_decode_sim0RdZero : decode ⟨0b10_0_0_000000111000, 4, 0⟩ = .ok (.sim0RdZero 0x00E) := by rfl
/-- SIM-4. -/
theorem test_decode_sim0WrGprA : decode ⟨0b10_1_0_000000010000, 4, 7⟩ = .ok (.sim0WrGprA 0 7) := by rfl
/-- SIM-9. -/
theorem test_decode_sim0WrGprB : decode ⟨0b10_1_0_000000100000, 4, 7⟩ = .ok (.sim0WrGprB 0 7) := by rfl
/-- SIM-10. -/
theorem test_decode_sim0WrGprC : decode ⟨0b10_1_0_000000110000, 4, 7⟩ = .ok (.sim0WrGprC 0 7) := by rfl
/-- SIM-2. -/
theorem test_decode_sim0WrNop : decode ⟨0b10_1_0_000000001000, 4, 0⟩ = .ok (.sim0WrNop 0x002 0) := by rfl
/-- DEC-10. -/
theorem test_decode_tstmrRdLo : decode ⟨0b11_0_0_000000000000, 4, 0⟩ = .ok (.tstmrRdLo) := by rfl
/-- TS-2. -/
theorem test_decode_tstmrRdHi : decode ⟨0b11_0_0_000000000100, 4, 0⟩ = .ok (.tstmrRdHi) := by rfl
/-- DEC-11. -/
theorem test_decode_tstmrRdZero : decode ⟨0b11_0_0_001111111100, 4, 0⟩ = .ok (.tstmrRdZero 0xFF) := by rfl
/-- DEC-12. -/
theorem test_decode_tstmrWrNop : decode ⟨0b11_1_0_001111111100, 4, 5⟩ = .ok (.tstmrWrNop 0xFF 5) := by rfl

/-- The table word of MU.RD.TSR, numbered as the table numbers it. -/
theorem test_decodeTableWord : decodeTableWord 16 0x4124 = some .muRdTsr ∧
    decodeTableWord 16 0x6200 = some (.muWrTr 0 0) ∧ decodeTableWord 48 0x00C700006200 = some (.muWrTr 0 0x00C70000) ∧
    decodeTableWord 16 0x5124 = none := by decide

/-- REF-1 to REF-8, in the order of the checks of R60. -/
theorem test_decode_refusals :
    decode ⟨0x4124, 2, 0⟩ = .error .badSize ∧ decode ⟨0x5124, 4, 0⟩ = .error .reservedHeaderBit ∧
    decode ⟨0x4126, 4, 0⟩ = .error .misaligned ∧ decode ⟨0x0800, 4, 0⟩ = .error .outOfWindow ∧
    decode ⟨0xC400, 4, 0⟩ = .error .outOfWindow ∧ decode ⟨0xD402, 4, 0⟩ = .error .reservedHeaderBit ∧
    decode ⟨0xC402, 4, 0⟩ = .error .misaligned ∧ decode ⟨0x5FFF, 1, 0⟩ = .error .badSize :=
  ⟨rfl, rfl, rfl, rfl, rfl, rfl, rfl, rfl⟩

/-! ## Vectors, one step each -/

/-- FSB-1 (construction is the first step, the read the second). -/
theorem test_fsb_pinned_first : (nextIs (fun s => nextIs (answers 0x18) (bus s (.rd .fsb 0x01C))) (step (State.unbuilt.launching ⟨fuseS0F, mapS0F, 0⟩))) = true := by decide +kernel
/-- FSB-3. -/
theorem test_fsb_pinned_last : (nextIs (fun s => nextIs (answers 0xF7) (bus s (.rd .fsb 0x19C))) (step (State.unbuilt.launching ⟨fuseS0F, mapS0F, 0⟩))) = true := by decide +kernel
/-- FSB-5. -/
theorem test_fsb_beyond_file : (nextIs (answers 0) (bus base (.rd .fsb 0x7FC))) = true := by decide +kernel
/-- FSB-4. -/
theorem test_fsb_write_dropped : (nextIs (fun s => rfRead s.fsb 0x000 == 0 && s.resp == .written) (bus base (.wr .fsb 0x000 0xFFFFFFFF))) = true := by decide +kernel
/-- MU-1. -/
theorem test_mu_status : (nextIs (answers 0xFFFFFFFF) (bus base (.rd .mu 0x124))) = true := by decide +kernel
/-- MU-4. -/
theorem test_mu_receive : (nextIs (answers 0xAABBCCDD) (bus (base.setMu (rfWrite base.mu 0x280 0xAABBCCDD)) (.rd .mu 0x280))) = true := by decide +kernel
/-- MU-4. -/
theorem test_mu_receive_unreadable : (nextIs (answers 0) (bus (base.setMu (rfWrite base.mu 0x290 0x55)) (.rd .mu 0x290))) = true := by decide +kernel
/-- MU-5. -/
theorem test_mu_transmit_not_readable : (nextIs (answers 0) (bus (withTr0 0x00010000) (.rd .mu 0x200))) = true := by decide +kernel
/-- SRC-4. -/
theorem test_mu_command_logged : (nextIs (fun s => !s.halted && s.log == [.muCmd 0xC6] && rfRead s.mu 0x200 == 0x00C60000) (bus base (.wr .mu 0x200 0x00C60000))) = true := by decide +kernel
/-- MU-8: bits 31:24 and 15:0 are ignored. -/
theorem test_mu_reset_halts : (nextIs (fun s => s.halted && s.resp == .halted 0xC7 && s.log == [] && rfRead s.mu 0x200 == 0xFFC7FFFF) (bus base (.wr .mu 0x200 0xFFC7FFFF))) = true := by decide +kernel
/-- MU-7. -/
theorem test_mu_identifier_is_of_word_0 : (nextIs (fun s => !s.halted && s.log == [.muCmd 0x00] && rfRead s.mu 0x204 == 0x00C70000) (bus base (.wr .mu 0x204 0x00C70000))) = true := by decide +kernel
/-- MU-14. -/
theorem test_mu_armed_word_halts : (nextIs (fun s => s.halted && rfRead s.mu 0x21C == 0) (bus (withTr0 0x00C70000) (.wr .mu 0x21C 0))) = true := by decide +kernel
/-- MU-9. -/
theorem test_mu_identifier_bits : (nextIs (fun s => !s.halted && s.log == [.muCmd 0x00]) (bus base (.wr .mu 0x200 0xC7000000))) = true := by decide +kernel
/-- MU-11. -/
theorem test_mu_unhandled_transmit_dropped : (nextIs (fun s => !s.halted && s.log == [] && rfRead s.mu 0x220 == 0) (bus base (.wr .mu 0x220 0x00C70000))) = true := by decide +kernel
/-- SIM-5. -/
theorem test_sim0_write : (nextIs (fun s => rfRead s.sim 0x34 == 0xCAFEF00D && rfRead s.sim 0x30 == 0) (bus base (.wr .sim0 0x34 0xCAFEF00D))) = true := by decide +kernel
/-- P2, step 8. -/
theorem test_sim0_read : (nextIs (answers 0x12345678) (bus (base.setSim (rfWrite base.sim 0x34 0x12345678)) (.rd .sim0 0x34))) = true := by decide +kernel
/-- P5, step 9. -/
theorem test_sim0_gpr_b : (nextIs (answers 0x0BADF00D) (bus (base.setSim (rfWrite base.sim 0x2C 0x0BADF00D)) (.rd .sim0 0x2C))) = true := by decide +kernel
/-- SIM-1. -/
theorem test_sim0_status : (nextIs (answers 0xFFFFFFFF) (bus base (.rd .sim0 0x8))) = true := by decide +kernel
/-- SIM-6. -/
theorem test_sim0_other_write_dropped : (nextIs (fun s => rfRead s.sim 0x38 == 0) (bus base (.wr .sim0 0x38 0xFFFFFFFF))) = true := by decide +kernel
/-- TS-1. -/
theorem test_tstmr_read : (nextIs (fun s => answers 5 s && s.ts == ⟨6, 0⟩) (bus base (.rd .tstmr 0x0))) = true := by decide +kernel
/-- TS-2. -/
theorem test_tstmr_wraps : (nextIs (fun s => answers 0xFFFFFFFF s && s.ts == ⟨0, 0⟩) (bus (base.setTs ⟨0xFFFFFFFF, 0⟩) (.rd .tstmr 0x0))) = true := by decide +kernel
/-- TS-4. -/
theorem test_tstmr_high : (nextIs (fun s => answers 0 s && s.ts == ⟨5, 0⟩) (bus base (.rd .tstmr 0x4))) = true := by decide +kernel
/-- TS-3. -/
theorem test_tstmr_write_dropped : (nextIs (fun s => s.ts == ⟨5, 0⟩) (bus base (.wr .tstmr 0x0 0))) = true := by decide +kernel
/-- P4, step 7. -/
theorem test_refused_out_of_window : (refusedFor .outOfWindow (bus base (.rd .fsb 0x800))) = true := by decide +kernel
/-- REF-9. -/
theorem test_refused_before_construct : (refusedFor .notConstructed (bus State.unbuilt (.rd .tstmr 0x0))) = true := by decide +kernel
/-- REF-10. -/
theorem test_refused_fuse_length : (refusedFor .badConstruct (step (State.unbuilt.launching ⟨List.replicate 511 0, mapS0F, 0⟩))) = true := by decide +kernel
/-- REF-11. -/
theorem test_refused_fsb_map : (refusedFor .badFsbMap (step (State.unbuilt.launching ⟨fuseS0F, [⟨500, 32, 0⟩], 0⟩))) = true := by decide +kernel
/-- REF-12. -/
theorem test_refused_fetch : (refusedFor .fetchFromDevice (step (base.issuing (.fetch .tstmr 0)))) = true := by decide +kernel
/-- HOST-1. -/
theorem test_save_counter : (nextIs (fun s => match s.resp with | .saved b => b.fields == [5, 0] | _ => false) (step (base.issuing (.save .tstmr)))) = true := by decide +kernel
/-- HOST-6. -/
theorem test_save_mailbox_order : ((saveFields .mu (withTr0 0x00020000))[128]? == some 0x00020000) = true := by decide +kernel

/-- HOST-3: the restore answers and sets the counter. -/
theorem test_restore_counter :
    step (base.issuing (.restore .tstmr ⟨Config.snapVersion .tstmr, [0xFFFFFFFF, 0]⟩)) =
      .next ((base.setTs ⟨0xFFFFFFFF, 0⟩).setResp .restored) := by
  rw [step_issuing _ ⟨rfl, rfl⟩, perform, opRestore, onLive_of_live ⟨rfl, rfl⟩, if_neg (by simp [snapWords])]
  rfl

/-- HOST-4: 43 words for SIM0. -/
theorem test_restore_count : step (base.issuing (.restore .sim0 ⟨Config.snapVersion .sim0, List.replicate 43 0⟩)) =
    .refused .badSnapshot := by
  rw [step_issuing _ ⟨rfl, rfl⟩, perform, opRestore, onLive_of_live ⟨rfl, rfl⟩, if_pos (by simp [snapWords])]

/-- RF-1 to RF-6. -/
theorem test_register_file :
    rfRead (rfInit 4) 0xC = 0 ∧ rfRead (rfWrite (rfInit 4) 0xC 0xDEADBEEF) 0xC = 0xDEADBEEF ∧
    rfRead (rfWrite (rfInit 4) 0xC 0xDEADBEEF) 0x10 = 0 ∧ rfRead (rfWrite (rfInit 4) 0xC 0xDEADBEEF) 0xE = 0 ∧
    rfWrite (rfInit 4) 0x10 1 = rfInit 4 ∧
    rfSave (rfWrite (rfInit 4) 0xC 0xDEADBEEF) (List.range 4) = [0, 0, 0, 0xDEADBEEF] := by decide

/-- R146: firmware at its line 0 waits for a receive word to change, and stays there. -/
theorem test_firmware_wait_stays :
    nextIs (fun s => answers 0 s && s.firmware.pos == 0) (step (base.setFirmware ⟨[waitRr], 0⟩)) = true := by decide +kernel

/-- The same wait on a mailbox whose receive word has changed: the firmware goes on to line 1. -/
theorem test_firmware_wait_ends :
    nextIs (fun s => answers 7 s && s.firmware.pos == 1)
      (step ((base.setMu (rfWrite base.mu 0x280 7)).setFirmware ⟨[waitRr], 0⟩)) = true := by decide +kernel

/-- The very first step after reset runs a placed table word. -/
theorem test_reset_runs_placed_word :
    nextIs (answers 0xFFFFFFFF) (step (State.reset.withFetchWord 16 0x8008)) = true := rfl

/-- The layout of R20 and R115: `tr` is fields 128 to 143, `rr` 160 to 175, `attr` 190. -/
theorem test_mailbox_layout : muFieldOffset .tr / 4 = 128 ∧ muFieldOffset .rr / 4 = 160 ∧ muFieldOffset .attr / 4 = 190 ∧
    muOrder.length = 191 := by decide +kernel

/-! ## Witnesses of the obligations' hypotheses -/

/-- Live states: the hypothesis of FsbInstructionsComplete, MuReadInstructionsComplete, Sim0ReadInstructionsComplete,
Sim0WriteInstructionsComplete, TstmrInstructionsComplete, FsbReadReturnsTheCell, MuStatusWordsReadAllOnes,
MuReceiveWordsAreReturned, MuTransmitStoresThenDecodes, Sim0StatusIsReadOnlyAllOnes, Sim0GprReadReturnsTheCell,
Sim0GprWriteStoresTheWord, CounterReadReturnsThenIncrements, EveryInstructionCompletes, SaveListsTheFields. -/
theorem witness_live : base.Live ∧ State.reset.Live := ⟨⟨rfl, rfl⟩, rfl, rfl⟩

theorem witness_DecodeOfEncodeIsIdentity : (Instr.sim0RdGprC 1).wellFormedWith .ten = true ∧
    (Instr.sim0RdGprC 0).wellFormedWith .nine = true ∧ (Instr.muWrNop 0x3FF 1).wellFormedWith .ten = true := by decide

theorem witness_DecodedInstructionsEncodeBack : decodeWith .ten ⟨0x6204, 4, 9⟩ = .ok (.muWrTr 1 9) ∧
    decodeWith .nine ⟨0x8034, 4, 9⟩ = .ok (.sim0RdZero 13) := ⟨rfl, rfl⟩

/-- A header for each clause: size, reserved bit, alignment, both windows, and the last offsets inside them. -/
theorem witness_UndecodedHeadersAreRefusedByName :
    (0x5124 : Header).getLsbD 12 = true ∧
    ((0x4FFF : Header).getLsbD 12 = false ∧ (0x4FFF : Header).extractLsb' 0 2 ≠ 0) ∧
    ((0x0800 : Header).getLsbD 12 = false ∧ (0x0800 : Header).extractLsb' 0 2 = 0 ∧ headerDev 0x0800 = .fsb ∧
      (0x0800 : Header).getLsbD 11 = true) ∧
    ((0xC400 : Header).extractLsb' 0 2 = 0 ∧ headerDev 0xC400 = .tstmr ∧ (0xC400 : Header).extractLsb' 10 2 ≠ 0) ∧
    (headerDev 0x07FC = .fsb ∧ (0x07FC : Header).getLsbD 11 = false) ∧
    (headerDev 0xC3FC = .tstmr ∧ (0xC3FC : Header).extractLsb' 10 2 = 0) ∧ headerDev 0x8FFC = .sim0 := by decide

/-- A transaction for each clause, at the last index. -/
theorem witness_DecodedIndexFields :
    decodeWith .ten (.rd .fsb 0x3FC) = .ok (.fsbRd 255) ∧ decodeWith .ten (.rd .mu 0x28C) = .ok (.muRdRr 3) ∧
    decodeWith .ten (.wr .mu 0x21C 1) = .ok (.muWrTr 7 1) ∧ decodeWith .ten (.rd .sim0 0x1C) = .ok (.sim0RdGprA 3) ∧
    decodeWith .ten (.rd .sim0 0x2C) = .ok (.sim0RdGprB 3) ∧ decodeWith .ten (.rd .sim0 0x34) = .ok (.sim0RdGprC 1) ∧
    decodeWith .ten (.wr .sim0 0x1C 1) = .ok (.sim0WrGprA 3 1) ∧
    decodeWith .ten (.wr .sim0 0x2C 1) = .ok (.sim0WrGprB 3 1) ∧
    decodeWith .nine (.wr .sim0 0x30 1) = .ok (.sim0WrGprC 0 1) := ⟨rfl, rfl, rfl, rfl, rfl, rfl, rfl, rfl, rfl⟩

/-- MU.RD.TSR and MU.RD.ZERO both take the header 0x4124. -/
theorem witness_OnlyDefaultRowsOverlap : ∃ r q, (decodeTable .ten .mu)[0]? = some r ∧
    (decodeTable .ten .mu)[3]? = some q ∧ r.hits 0x4124 = true ∧ q.hits 0x4124 = true :=
  ⟨_, _, rfl, rfl, by decide, by decide⟩

theorem witness_HeaderCarriesItsFields : 0xFFF < 4096 ∧ mkHeader .tstmr true 0xFFF = 0xEFFF := by decide

theorem witness_NineGprAlternativeMovesOneOffset : headerOff (Transaction.rd .sim0 0x30).header ≠ 0x34 ∧
    headerOff (Transaction.rd .sim0 0x38).header ≠ 0x34 := by decide

theorem witness_StepRunsTheDecodedTransaction :
    (base.issuing (.bus (.rd .mu 0x124))).Live ∧
    (base.issuing (.bus (.rd .mu 0x124))).pending = .bus (.rd .mu 0x124) :: [] ∧
    decode (.rd .mu 0x124) = .ok .muRdTsr ∧ decode (.rd .fsb 0x800) = .error .outOfWindow ∧
    (base.setFirmware ⟨[waitRr], 0⟩).Live ∧ base.pending = [] ∧ [waitRr][0]? = some waitRr ∧
    decode waitRr.op = .ok (.muRdRr 0) :=
  ⟨⟨rfl, rfl⟩, rfl, rfl, rfl, ⟨rfl, rfl⟩, rfl, rfl, rfl⟩

theorem witness_StepRunsThePlacedTableWord : base.Live ∧ decodeTableWord 16 0xC000 = some .tstmrRdLo := ⟨⟨rfl, rfl⟩, rfl⟩

theorem witness_IdleBlockStays : base.Ready ∧ State.unbuilt.Ready ∧ base.pending = [] ∧
    base.firmware.lines.length ≤ base.firmware.pos := by decide

/-- A write that halts and one that does not, each by word 0 and by another word. -/
theorem witness_MuWriteInstructionsComplete : base.Live ∧ (withTr0 0x00C70000).Live ∧
    muCommand (rfWrite base.mu (0x200 + 4 * (0 : BitVec 3).toNat) 0x00C70000) = 0xC7 ∧
    muCommand (rfWrite (withTr0 0x00C70000).mu (0x200 + 4 * (7 : BitVec 3).toNat) 0) = 0xC7 ∧
    muCommand (rfWrite base.mu (0x200 + 4 * (0 : BitVec 3).toNat) 0x00C60000) ≠ 0xC7 ∧
    muCommand (rfWrite base.mu (0x200 + 4 * (1 : BitVec 3).toNat) 0x00C70000) ≠ 0xC7 := by decide +kernel

/-- Offsets at both ends of each range, with a live state (witness_live): FsbReadBeyondTheFileIsZero, FsbWriteIsDropped,
OtherMuReadsAreZero, OtherMuWritesAreDropped, OtherSim0ReadsAreZero, OtherSim0WritesAreDropped,
OtherCounterReadsAreZero, CounterWritesAreDropped. -/
theorem witness_offsets :
    (∀ off ∈ [0x400, 0x7FC], 0x400 ≤ off ∧ off ≤ 0x7FC ∧ off % 4 = 0) ∧
    (∀ off ∈ [0x000, 0x27C, 0x290, 0xFFC], off ≤ 0xFFC ∧ off % 4 = 0 ∧ off ≠ 0x124 ∧ off ≠ 0x12C ∧
      ¬ (0x280 ≤ off ∧ off ≤ 0x28C)) ∧
    (∀ off ∈ [0x000, 0x1FC, 0x220, 0xFFC], off ≤ 0xFFC ∧ off % 4 = 0 ∧ ¬ (0x200 ≤ off ∧ off ≤ 0x21C)) ∧
    (∀ off ∈ [0x000, 0x00C, 0x038, 0xFFC], off ≤ 0xFFC ∧ off % 4 = 0 ∧ off ≠ 0x8 ∧ ¬ (0x10 ≤ off ∧ off ≤ 0x34)) ∧
    (∀ off ∈ [0x4, 0x8, 0x3FC], 0x4 ≤ off ∧ off ≤ 0x3FC ∧ off % 4 = 0) := by decide

/-- A live block on which word 0 receives the system-reset identifier. -/
theorem witness_SystemResetCommandEndsTheRun : base.Live ∧
    ((base.mu.set 128 0x00C70000)[128]).extractLsb' 16 8 = 0xC7 := by decide +kernel

/-- A backed offset at the end of the file and an unbacked one just after it. -/
theorem witness_RegisterFileReadsAndWrites : (0xAC % 4 = 0 ∧ 0xAC / 4 < 44) ∧ ¬ (0xB0 % 4 = 0 ∧ 0xB0 / 4 < 44) ∧
    ¬ (0xAE % 4 = 0 ∧ 0xAE / 4 < 44) := by decide

theorem witness_OnlyTheCounterReadHasASideEffect : base.Live ∧ headerW (Instr.tstmrRdHi).header = false ∧
    headerW (Instr.tstmrRdLo).header = false := by decide

/-- One instruction for each clause. -/
theorem witness_RepeatedTransactions :
    (∃ t, exec (.sim0WrGprA 0 1) base = .next t) ∧ (∃ t, exec .tstmrRdLo base = .next t) ∧
    (∃ t, exec (.muWrTr 0 0x00010000) base = .next t ∧ t.halted = false) := by
  refine ⟨⟨_, rfl⟩, ⟨_, rfl⟩, ?_⟩
  have h : nextIs (fun s => !s.halted) (exec (.muWrTr 0 0x00010000) base) = true := by decide +kernel
  obtain ⟨t, ht, hh⟩ := next_of_nextIs h
  exact ⟨t, ht, by simpa using hh⟩

/-- A RESTORE that changes the FSB. -/
theorem witness_OnlyRestoreChangesTheFsb : base.constructed = true ∧
    ∃ t, step (base.issuing (.restore .fsb ⟨Config.snapVersion .fsb, List.replicate 256 1⟩)) = .next t ∧ t.fsb ≠ base.fsb := by
  refine ⟨rfl, (assignFields .fsb (List.replicate 256 1) base).setResp .restored, ?_, ?_⟩
  · rw [step_issuing _ ⟨rfl, rfl⟩, perform, opRestore, onLive_of_live ⟨rfl, rfl⟩,
      if_neg (not_or.mpr ⟨fun h => h rfl, fun h => h List.length_replicate⟩)]
  · exact rf_ne (off := 0) (by decide +kernel)

/-- A transmit write, a GPR write and a counter read, each as the operation issued, and a firmware's read. -/
theorem witness_EachPartChangesOnlyByItsOwnOperations :
    (base.setFirmware ⟨[waitRr], 0⟩).nextRequest = some (.bus waitRr.op) ∧
    (base.issuing (.bus (.wr .mu 0x21C 1))).nextRequest = some (.bus (.wr .mu 0x21C 1)) ∧
    isTransmit (.bus (.wr .mu 0x21C 1)) = true ∧ isTransmit (.bus (.wr .mu 0x220 1)) = false ∧
    isGprWrite 9 (.bus (.wr .sim0 0x34 1)) = true ∧ isCounterRead (.bus (.rd .tstmr 0)) = true ∧
    nextIs (fun t => !t.halted && rfRead t.mu 0x21C != rfRead base.mu 0x21C) (bus base (.wr .mu 0x21C 1)) = true ∧
    nextIs (fun t => rfRead t.sim 0x34 != rfRead base.sim 0x34) (bus base (.wr .sim0 0x34 1)) = true ∧
    nextIs (fun t => t.ts != base.ts) (bus base (.rd .tstmr 0)) = true := by decide +kernel

/-- The halting step, and a halted state. -/
theorem witness_HaltedExactlyBySystemReset : base.halted = false ∧ (base.setHalted true).halted = true ∧
    nextIs (fun t => t.halted) (bus base (.wr .mu 0x200 0x00C70000)) = true ∧
    nextIs (fun t => !t.halted) (bus base (.wr .mu 0x200 0x00C60000)) = true := by decide +kernel

/-- Before CONSTRUCT, with none called for and with one called for. -/
theorem witness_NothingBeforeConstruction : State.unbuilt.halted = false ∧ State.unbuilt.constructed = false ∧
    State.unbuilt.launch = none ∧ (State.unbuilt.launching ⟨[], [], 0⟩).constructed = false := ⟨rfl, rfl, rfl, rfl⟩

theorem witness_FetchFromAWindowIsRefused : base.halted = false ∧ base.launch = none ∧ State.unbuilt.launch = none ∧
    0x3FC < Dev.span .tstmr := by decide

/-- Operands for each clause. -/
theorem witness_ConstructCompletesOrRefuses :
    State.unbuilt.halted = false ∧ (State.unbuilt.launching ⟨fuseS0F, mapS0F, 0⟩).launch = some ⟨fuseS0F, mapS0F, 0⟩ ∧
    nextIs (fun t => t.constructed) (step (State.unbuilt.launching ⟨fuseS0F, mapS0F, 0⟩)) = true ∧
    State.unbuilt.constructed = false ∧ fuseS0F.length = 512 ∧ fsbMapOk mapS0F = true ∧
    (List.replicate 511 (0 : Word)).length ≠ 512 ∧ fsbMapOk [⟨500, 32, 0⟩] = false ∧ base.constructed = true := by decide +kernel

/-- A table R82 admits, one of its cells at each end, and a cell no entry covers. -/
theorem witness_FsbLoadCopiesTheTable : fuseS0F.length = 512 ∧ fsbMapOk mapS0F = true ∧ ⟨64, 64, 128⟩ ∈ mapS0F ∧ 63 < 64 ∧
    (∀ e ∈ mapS0F, ¬ (e.dst ≤ 200 ∧ 200 < e.dst + e.len)) := by decide +kernel

theorem witness_PinnedFuseWordsAtReset : 7 < 8 := by decide

/-- A blob for each clause: the right one, a wrong tag, a wrong count. -/
theorem witness_RestoreAssignsTheFields : base.Live ∧
    (List.replicate 191 (1 : Word)).length = snapWords .mu ∧ (List.replicate 190 (1 : Word)).length ≠ snapWords .mu ∧
    Config.snapVersion .mu + 1 ≠ Config.snapVersion .mu :=
  ⟨⟨rfl, rfl⟩, List.length_replicate, by rw [List.length_replicate]; decide, by omega⟩

theorem witness_RestoreOfASaveRoundTrips : base.Live ∧ (withTr0 1).Live ∧ (Instr.muRdRr 3).dev = .mu ∧
    headerW (Instr.muRdRr 3).header = false := by decide

/-- A mailbox snapshot that arms the halt. -/
theorem witness_RestoredSystemResetArmsTheHalt : base.Live ∧
    (List.replicate 128 (0 : Word) ++ 0x00C70000 :: List.replicate 62 0).length = 191 ∧
    ((List.replicate 128 (0 : Word) ++ 0x00C70000 :: List.replicate 62 0).getD 128 0).extractLsb' 16 8 = 0xC7 := by decide +kernel

/-- Bases R37 admits, offsets at both ends of a window, and an address outside all of them. -/
theorem witness_GuestAddressesRouteToTheirWindow : basesOk ⟨0x3000, 0x0000, 0x1000, 0x2000⟩ = true ∧
    0x7FF < Dev.span .fsb ∧ route ⟨0x3000, 0x0000, 0x1000, 0x2000⟩ 0x37FF = some (.fsb, 0x7FF) ∧
    route ⟨0x3000, 0x0000, 0x1000, 0x2000⟩ 0x3800 = none := by decide

theorem witness_GuestAccessIsItsTransaction : base.Ready ∧ 0xFFC < Dev.span .mu := by decide

/-- An address above every window, whatever the bases are. -/
theorem witness_GuestAccessOutside (b : Bases) : route b (b.fsb + b.mu + b.sim0 + b.tstmr + 0x4000) = none := by
  simp only [route, Option.map_eq_none_iff, List.find?_eq_none]
  intro d _
  simp only [inWindow, Bool.and_eq_true, decide_eq_true_eq]
  cases d <;> simp only [Bases.of, Dev.span] <;> omega

/-- Reset, with a halting write issued: the invariant holds and the step answers a next state. -/
theorem witness_EveryStepKeepsTheInvariant :
    Inv (State.reset.issuing (.bus (.wr .mu 0x200 0x00C70000))) ∧
    nextIs (fun t => t.halted) (step (State.reset.issuing (.bus (.wr .mu 0x200 0x00C70000)))) = true := by
  refine ⟨⟨fun i _ => rfRead_rfInit _, fun h => Bool.noConfusion h, fun h => Bool.noConfusion h, fun h => Bool.noConfusion h,
    fun _ h => Response.noConfusion h, List.not_mem_nil, fun _ => rfl⟩, ?_⟩
  decide +kernel

/-- A run of three operations, two of them counter reads, and a run of a firmware that reads the counter. -/
theorem witness_CounterCountsItsReads :
    (base.setFirmware ⟨[readLo], 0⟩).nextRequest = some (.bus (.rd .tstmr 0)) ∧
    performed 2 (base.setFirmware ⟨[readLo], 0⟩) = [.bus (.rd .tstmr 0), .bus (.rd .tstmr 0)] ∧
    nextIs (fun t => !t.halted && t.ts == ⟨7, 0⟩) (Host.Core.run Sys2Proof.core 2 (base.setFirmware ⟨[readLo], 0⟩)) = true ∧
    (base.setPending [.bus (.rd .tstmr 0), .bus (.rd .sim0 8), .bus (.rd .tstmr 0)]).Live ∧
    counterReads [.bus (.rd .tstmr 0), .bus (.rd .sim0 8), .bus (.rd .tstmr 0)] = 2 ∧
    nextIs (fun t => !t.halted && t.ts == ⟨7, 0⟩)
      (Host.Core.run Sys2Proof.core 3
        (base.setPending [.bus (.rd .tstmr 0), .bus (.rd .sim0 8), .bus (.rd .tstmr 0)])) = true := by decide +kernel

/-- A write of GPR 9, then a run that reads and writes elsewhere, issued or the firmware's. -/
theorem witness_GprReadReturnsTheLatestWrite :
    (base.setFirmware ⟨[readLo], 0⟩).nextRequest = some (.bus (.rd .tstmr 0)) ∧
    isGprWrite 9 (.bus (.rd .tstmr 0)) = false ∧
    nextIs (fun u => performed 1 u == [.bus (.rd .tstmr 0)] && nextIs (fun t => !t.halted) (Host.Core.run Sys2Proof.core 1 u))
      (step ((base.setFirmware ⟨[readLo], 0⟩).issuing (.bus (.wr .sim0 0x34 1)))) = true ∧
    isGprWrite 9 (.bus (.wr .sim0 0x30 2)) = false ∧
    nextIs (fun u => nextIs (fun t => !t.halted) (Host.Core.run Sys2Proof.core 1 u))
      (step ((base.setPending [.bus (.wr .sim0 0x30 2)]).issuing (.bus (.wr .sim0 0x34 1)))) = true := by decide +kernel

/-- A run of one operation from a live state and from reset, and one of a firmware. -/
theorem witness_FsbReadsReturnTheConstructionCopy :
    (base.issuing (.bus (.wr .fsb 0 1))).nextRequest = some (.bus (.wr .fsb 0 1)) ∧
    nextIs (fun t => !t.halted) (bus base (.wr .fsb 0 1)) = true ∧
    nextIs (fun t => !t.halted) (Host.Core.run Sys2Proof.core 2
      ((State.reset.setPending [.bus (.wr .fsb 0 1)]).setFirmware ⟨[waitRr], 0⟩)) = true := by
  decide +kernel

/-- A wait for each register polled, and a firmware that loops over two lines. -/
theorem witness_EndlessWaitsRunForEver :
    base.Live ∧ base.pending = [] ∧ waitRr.op = .rd .mu (0x280 + 4 * (0 : Fin 4).val) ∧
    waitRr.target (.rdata base.mu[160]) = 0 ∧
    (Line.mk (.rd .mu 0x12C) 1 0 1 0).target (.rdata 0xFFFFFFFF) = 0 ∧
    (Line.mk (.rd .tstmr 0x4) 0xFFFFFFFF 0 0 1).target (.rdata 0) = 0 ∧
    decode waitRr.op = .ok (.muRdRr 0) ∧ isMuTransmit (.muRdRr 0) = false ∧
    decode (.rd .tstmr 0) = .ok .tstmrRdLo ∧ isMuTransmit .tstmrRdLo = false := by
  decide +kernel

end Sys2Proof.Tests
end

/-! PROOFS. The family 30_encoding: which headers are refused and by which name (R65), and the index fields (R56). -/

namespace Sys2Proof

/-! ## A header as a row's match value and a field (R61 to R64) -/

/-- The field of a header that starts at bit 2, cut out in place. -/
theorem fieldAt2_extract (h : Header) (n : Nat) :
    fieldAt2 (h.extractLsb' 2 n) = h &&& fieldAt2 (BitVec.allOnes n) := by
  apply BitVec.eq_of_getLsbD_eq
  intro j hj
  by_cases h2 : j < 2
  · rw [BitVec.getLsbD_and, getLsbD_fieldAt2_low _ h2, getLsbD_fieldAt2_low _ h2, Bool.and_false]
  · obtain ⟨k, rfl⟩ : ∃ k, j = 2 + k := ⟨j - 2, by omega⟩
    by_cases hk : k < n <;> simp [fieldAt2, hj, hk, Bool.and_comm]

/-- A header that a row hits is the row's match value with the header's own field filled in, when the row's mask has
every bit outside that field. -/
theorem or_fieldAt2_of_hits {h mask value : Header} (n : Nat)
    (hmask : mask ||| fieldAt2 (BitVec.allOnes n) = BitVec.allOnes 16) (hh : h &&& mask = value) :
    value ||| fieldAt2 (h.extractLsb' 2 n) = h := by
  rw [fieldAt2_extract, ← hh, ← BitVec.and_or_distrib_left, hmask, BitVec.and_allOnes]

/-- A row without a field hits its match value only. -/
theorem eq_of_hits_allOnes {h value : Header} (hh : h &&& 0xFFFF = value) : value = h :=
  hh.symm.trans BitVec.and_allOnes

/-- A row whose mask leaves out just the field of `n` bits hits every header that agrees with its match value in the
bits above the field and in `OFF[1:0]`. -/
theorem Row.hits_of_toNat {h : Header} {r : Row} (n : Nat) (hmask : r.mask = ~~~ fieldAt2 (BitVec.allOnes n))
    (hvalue : r.value &&& r.mask = r.value) (hhigh : h.toNat / 2 ^ (n + 2) = r.value.toNat / 2 ^ (n + 2))
    (hlow : h.toNat % 2 ^ 2 = r.value.toNat % 2 ^ 2) : r.hits h = true := by
  rw [Row.hits_iff, ← hvalue]
  apply BitVec.eq_of_getLsbD_eq
  intro j hj
  rw [BitVec.getLsbD_and, BitVec.getLsbD_and]
  by_cases hl : j < 2
  · have hbit : h.getLsbD j = r.value.getLsbD j := by
      simpa only [BitVec.testBit_toNat, Nat.testBit_mod_two_pow, hl, decide_true, Bool.true_and]
        using congrArg (·.testBit j) hlow
    rw [hbit]
  by_cases hn : n + 2 ≤ j
  · have hbit : h.getLsbD j = r.value.getLsbD j := by
      simpa only [BitVec.testBit_toNat, Nat.testBit_div_two_pow, Nat.sub_add_cancel hn]
        using congrArg (·.testBit (j - (n + 2))) hhigh
    rw [hbit]
  · have hfield : r.mask.getLsbD j = false := by
      rw [hmask]
      simp [fieldAt2, hj, hl, show j - 2 < n by omega]
    rw [hfield, Bool.and_false, Bool.and_false]

/-- `W` is no bit of a field. -/
theorem headerW_or_fieldAt2 {n : Nat} (m : Header) (x : BitVec n) (hn : n ≤ 10) :
    headerW (m ||| fieldAt2 x) = headerW m := by
  unfold headerW
  rw [BitVec.getLsbD_or, getLsbD_fieldAt2_high x (by omega), Bool.or_false]

/-- `OFF` of a field alone is its byte offset (R56). -/
theorem headerOff_fieldAt2 {n : Nat} (x : BitVec n) (hn : n ≤ 10) : headerOff (fieldAt2 x) = 4 * x.toNat := by
  have hx : x.toNat < 2 ^ 10 := Nat.lt_of_lt_of_le x.isLt (Nat.pow_le_pow_right (by omega) hn)
  simp only [headerOff, fieldAt2, BitVec.extractLsb'_toNat, BitVec.toNat_shiftLeft, BitVec.toNat_setWidth,
    Nat.shiftLeft_eq, Nat.shiftRight_zero]
  omega

/-- `OFF` of a row's header is that of its match value plus the byte offset of the field (R56). -/
theorem headerOff_or_fieldAt2 {n : Nat} (m : Header) (x : BitVec n) (hn : n ≤ 10)
    (hm : ∀ j, j < n → m.getLsbD (2 + j) = false) : headerOff (m ||| fieldAt2 x) = headerOff m + 4 * x.toNat := by
  have hdisj : m.extractLsb' 0 12 &&& (fieldAt2 x).extractLsb' 0 12 = 0#12 := by
    apply BitVec.eq_of_getLsbD_eq
    intro j hj
    rw [BitVec.getLsbD_and, BitVec.getLsbD_extractLsb', BitVec.getLsbD_extractLsb', Nat.zero_add]
    by_cases hl : j < 2
    · simp [getLsbD_fieldAt2_low x hl]
    by_cases hh : n + 2 ≤ j
    · simp [getLsbD_fieldAt2_high x hh]
    · have := hm (j - 2) (by omega)
      rw [show 2 + (j - 2) = j by omega] at this
      simp [this]
  calc headerOff (m ||| fieldAt2 x)
      = (m.extractLsb' 0 12 ||| (fieldAt2 x).extractLsb' 0 12).toNat := by
        rw [headerOff, BitVec.extractLsb'_or]
    _ = headerOff m + headerOff (fieldAt2 x) := by
        rw [← BitVec.add_eq_or_of_and_eq_zero _ _ hdisj, BitVec.toNat_add_of_and_eq_zero hdisj, headerOff, headerOff]
    _ = headerOff m + 4 * x.toNat := by rw [headerOff_fieldAt2 x hn]

/-! ## The rows -/

/-- A row builds an instruction of the device whose table it stands in. -/
theorem build_dev (c : GprCount) (d : Dev) (h : Header) (v : Word) :
    ∀ r ∈ decodeTable c d, (r.build h v).dev = d := by
  cases d <;> simp [decodeTable, fsbRows, muRows, simRows, tstmrRows, Instr.dev]

/-- What a row builds from a header it hits has that header. -/
theorem build_header (c : GprCount) (d : Dev) (h : Header) (v : Word) :
    ∀ r ∈ decodeTable c d, r.hits h = true → (r.build h v).header = h := by
  simp only [Row.hits_iff]
  cases d with
  | fsb =>
    simp only [decodeTable, fsbRows, List.forall_mem_cons]
    exact ⟨or_fieldAt2_of_hits 8 (by decide), or_fieldAt2_of_hits 8 (by decide), or_fieldAt2_of_hits 9 (by decide),
      List.forall_mem_nil _⟩
  | mu =>
    simp only [decodeTable, muRows, List.forall_mem_cons]
    exact ⟨eq_of_hits_allOnes, eq_of_hits_allOnes, or_fieldAt2_of_hits 2 (by decide),
      or_fieldAt2_of_hits 10 (by decide), or_fieldAt2_of_hits 3 (by decide), or_fieldAt2_of_hits 10 (by decide),
      List.forall_mem_nil _⟩
  | sim0 =>
    have hc : gprMaskC c ||| fieldAt2 (BitVec.allOnes 1) = BitVec.allOnes 16 := by cases c <;> decide
    simp only [decodeTable, simRows, List.forall_mem_cons]
    exact ⟨eq_of_hits_allOnes, or_fieldAt2_of_hits 2 (by decide), or_fieldAt2_of_hits 2 (by decide),
      or_fieldAt2_of_hits 1 hc, or_fieldAt2_of_hits 10 (by decide), or_fieldAt2_of_hits 2 (by decide),
      or_fieldAt2_of_hits 2 (by decide), or_fieldAt2_of_hits 1 hc, or_fieldAt2_of_hits 10 (by decide),
      List.forall_mem_nil _⟩
  | tstmr =>
    simp only [decodeTable, tstmrRows, List.forall_mem_cons]
    exact ⟨eq_of_hits_allOnes, eq_of_hits_allOnes, or_fieldAt2_of_hits 8 (by decide),
      or_fieldAt2_of_hits 8 (by decide), List.forall_mem_nil _⟩

/-- A row hands `WDATA` to the instruction it builds exactly when that one is a write (R53, R54). -/
theorem build_wdata (c : GprCount) (d : Dev) (h : Header) (v : Word) :
    ∀ r ∈ decodeTable c d, (r.build h v).wdata = if headerW (r.build h v).header then v else 0 := by
  cases d <;>
  · simp only [decodeTable, fsbRows, muRows, simRows, tstmrRows, List.forall_mem_cons, Instr.header, Instr.wdata,
      headerW_or_fieldAt2, Nat.reduceLeDiff, le_refl]
    simp [headerW]

/-! ## What a decoded instruction says of its transaction -/

/-- The header of a decoded instruction is that of the transaction. -/
theorem decodeWith_ok_header {c : GprCount} {t : Transaction} {i : Instr} (h : decodeWith c t = .ok i) :
    i.header = t.header := by
  obtain ⟨-, r, hr, rfl⟩ := decodeWith_ok h
  exact build_header c _ _ _ r (List.mem_of_find?_eq_some hr) (List.find?_some hr)

/-- A decoded write carries `WDATA` (R53). -/
theorem decodeWith_ok_wdata {c : GprCount} {t : Transaction} {i : Instr} (h : decodeWith c t = .ok i)
    (hw : headerW i.header = true) : i.wdata = t.wdata := by
  obtain ⟨-, r, hr, rfl⟩ := decodeWith_ok h
  rw [build_wdata c _ _ _ r (List.mem_of_find?_eq_some hr), if_pos hw]

/-- With nine GPRs the read and the write at 0x34 are the default rows' (D19, C6). -/
theorem decodeWith_nine_0x34 (v : Word) : decodeWith .nine ⟨0x8034, 4, v⟩ = .ok (.sim0RdZero 13) ∧
    decodeWith .nine ⟨0xA034, 4, v⟩ = .ok (.sim0WrNop 13 v) :=
  ⟨decodeWith_of_index .sim0 4 (by decide) (by decide) (by decide) rfl,
    decodeWith_of_index .sim0 8 (by decide) (by decide) (by decide) rfl⟩

/-! ## Indices (R56) -/

/-- A field is `OFF` from bit 2 up, and counts the words that `OFF` has beyond the row's match value (R56). -/
theorem field_of_header {n : Nat} {h m : Header} {x : BitVec n} (hx : m ||| fieldAt2 x = h) (hn : n ≤ 10)
    (hm : ∀ j, j < n → m.getLsbD (2 + j) = false) :
    x = h.extractLsb' 2 n ∧ headerOff m ≤ headerOff h ∧ x.toNat = (headerOff h - headerOff m) / 4 := by
  subst hx
  have hoff := headerOff_or_fieldAt2 m x hn hm
  exact ⟨(extract_fieldAt2 m x hn hm).symm, by omega, by omega⟩

/-- The GPR a SIM0 instruction names, whichever pattern of R63 it has. -/
def Instr.gprIndex : Instr → Option Nat
  | .sim0RdGprA i | .sim0WrGprA i _ => some (Machine.gprIndexA i)
  | .sim0RdGprB i | .sim0WrGprB i _ => some (Machine.gprIndexB i)
  | .sim0RdGprC i | .sim0WrGprC i _ => some (Machine.gprIndexC i)
  | _ => none

/-- GPR `k` stands at offset `0x10 + 4k`. -/
theorem headerOff_of_gprIndex {i : Instr} {k : Nat} (hk : i.gprIndex = some k) :
    headerOff i.header = 0x10 + 4 * k := by
  cases i with
  | sim0RdGprA i | sim0WrGprA i =>
    cases hk
    exact headerOff_or_fieldAt2 _ i (by decide) (by decide)
  | sim0RdGprB i | sim0WrGprB i =>
    cases hk
    refine (headerOff_or_fieldAt2 _ i (by decide) (by decide)).trans
      (?_ : 0x20 + 4 * i.toNat = 0x10 + 4 * (4 + i.toNat))
    omega
  | sim0RdGprC i | sim0WrGprC i =>
    cases hk
    refine (headerOff_or_fieldAt2 _ i (by decide) (by decide)).trans
      (?_ : 0x30 + 4 * i.toNat = 0x10 + 4 * (8 + i.toNat))
    omega
  | _ => cases hk

/-- Only pattern c names a GPR beyond the ninth, at 0x34. -/
theorem gprIndex_cases {i : Instr} {k : Nat} (hk : i.gprIndex = some k) :
    k < 9 ∨ k = 9 ∧ (i = .sim0RdGprC 1 ∨ ∃ v, i = .sim0WrGprC 1 v) := by
  cases i with
  | sim0RdGprA i | sim0RdGprB i | sim0WrGprA i | sim0WrGprB i =>
    cases hk
    simp only [Machine.gprIndexA, Machine.gprIndexB]
    omega
  | sim0RdGprC i | sim0WrGprC i =>
    cases hk
    obtain rfl | rfl := BitVec.eq_zero_or_eq_one i <;> simp [Machine.gprIndexC]
  | _ => cases hk

/-- A decoded GPR index is below P_SIM0_GPR_COUNT: with nine GPRs the default rows take 0x34. -/
theorem decodeWith_ok_gprIndex_lt {c : GprCount} {t : Transaction} {i : Instr} {k : Nat} (h : decodeWith c t = .ok i)
    (hk : i.gprIndex = some k) : k < c.toNat := by
  cases c with
  | ten => rcases gprIndex_cases hk with h9 | ⟨rfl, -⟩ <;> simp only [GprCount.toNat] <;> omega
  | nine =>
    rcases gprIndex_cases hk with h9 | ⟨-, hi⟩
    · exact h9
    have hh := decodeWith_ok_header h
    obtain ⟨hsize, -⟩ := checkTransaction_none_iff.mp (decodeWith_ok h).1
    obtain ⟨header, size, v⟩ := t
    cases hsize
    rcases hi with rfl | ⟨w, rfl⟩ <;> cases hh
    · cases h.symm.trans (decodeWith_nine_0x34 v).1
    · cases h.symm.trans (decodeWith_nine_0x34 v).2

/-- The row of R56 for the GPRs: `k = (OFF - 0x10) >> 2`, below P_SIM0_GPR_COUNT. -/
theorem decodeWith_ok_gprIndex {c : GprCount} {t : Transaction} {i : Instr} {k : Nat} (h : decodeWith c t = .ok i)
    (hk : i.gprIndex = some k) :
    0x10 ≤ headerOff t.header ∧ k = (headerOff t.header - 0x10) / 4 ∧ k < c.toNat := by
  have hoff := headerOff_of_gprIndex hk
  rw [decodeWith_ok_header h] at hoff
  exact ⟨by omega, by omega, decodeWith_ok_gprIndex_lt h hk⟩

/-- Settles O4: a decoded instruction's header is its row's match value with the index filled in, so the index is read
off the header, and off `OFF` beyond the match value. -/
theorem decodedIndexFields : Obligations.DecodedIndexFields := by
  intro c t
  refine ⟨fun i h => ?_, fun n h => ?_, fun n v h => ⟨?_, ?_⟩,
    fun i h => decodeWith_ok_gprIndex h rfl, fun i h => decodeWith_ok_gprIndex h rfl,
    fun i h => decodeWith_ok_gprIndex h rfl, fun i v h => ⟨?_, decodeWith_ok_gprIndex h rfl⟩,
    fun i v h => ⟨?_, decodeWith_ok_gprIndex h rfl⟩, fun i v h => ⟨?_, decodeWith_ok_gprIndex h rfl⟩⟩
  · obtain ⟨hi, -, hoff⟩ := field_of_header (decodeWith_ok_header h) (by decide) (by decide)
    exact ⟨hi, hoff⟩
  · exact field_of_header (decodeWith_ok_header h) (by decide) (by decide)
  · exact decodeWith_ok_wdata h (headerW_or_fieldAt2 0x6200 n (by decide))
  · exact field_of_header (decodeWith_ok_header h) (by decide) (by decide)
  · exact decodeWith_ok_wdata h (headerW_or_fieldAt2 0xA010 i (by decide))
  · exact decodeWith_ok_wdata h (headerW_or_fieldAt2 0xA020 i (by decide))
  · exact decodeWith_ok_wdata h (headerW_or_fieldAt2 0xA030 i (by decide))

/-! ## Refusals by name (R65) -/

/-- A transaction that a check refuses decodes to that refusal (R60). -/
theorem decodeWith_of_check {c : GprCount} {t : Transaction} {e : DecodeError} (h : checkTransaction t = some e) :
    decodeWith c t = .error e := by
  simp [decodeWith, h]

/-- A transaction that passes the checks before the window check is refused when it lies outside its window
(R60). -/
theorem checkTransaction_outOfWindow {t : Transaction} (hs : t.size = 4) (hr : t.header.getLsbD 12 = false)
    (hl : t.header.extractLsb' 0 2 = 0) (hw : ¬ headerOff t.header < (headerDev t.header).span) :
    checkTransaction t = some .outOfWindow := by
  simp only [checkTransaction, headerR, hs, hr, hl, ge_iff_le, not_lt.mp hw, ne_eq, not_true_eq_false, if_false,
    if_true, Bool.false_eq_true]

/-- The device select is the top two bits of the header (R54, R55). -/
theorem headerDev_code (h : Header) : (headerDev h).code.toNat = h.toNat / 16384 := by
  have hcode (c : BitVec 2) : (Dev.ofCode c).code = c := by revert c; decide
  rw [headerDev, hcode, BitVec.extractLsb'_toNat, Nat.shiftRight_eq_div_pow]
  omega

/-- `OFF` is the low twelve bits of the header (R54). -/
theorem headerOff_eq (h : Header) : headerOff h = h.toNat % 4096 := by
  simp [headerOff]

/-- A bit of the header, as arithmetic. -/
theorem getLsbD_iff (h : Header) (k : Nat) : h.getLsbD k = true ↔ h.toNat / 2 ^ k % 2 = 1 := by
  rw [BitVec.getLsbD, Nat.testBit_eq_decide_div_mod_eq, decide_eq_true_iff]

/-- `OFF[11] = 1` is what lies beyond the FSB window (R65). -/
theorem getLsbD_11_iff (h : Header) : h.getLsbD 11 = true ↔ 2048 ≤ headerOff h := by
  rw [getLsbD_iff, headerOff_eq]
  omega

/-- `OFF[11:10] ≠ 0` is what lies beyond the TSTMR window (R65). -/
theorem extract_10_ne_zero_iff (h : Header) : h.extractLsb' 10 2 ≠ 0 ↔ 1024 ≤ headerOff h := by
  rw [ne_eq, ← BitVec.toNat_inj, BitVec.extractLsb'_toNat, Nat.shiftRight_eq_div_pow, headerOff_eq,
    show (0 : BitVec 2).toNat = 0 from rfl]
  omega

/-- A header is outside its window exactly in the two ways R65 names. -/
theorem headerOff_lt_span_iff (h : Header) : headerOff h < (headerDev h).span ↔
    ¬ (headerDev h = .fsb ∧ h.getLsbD 11 = true) ∧ ¬ (headerDev h = .tstmr ∧ h.extractLsb' 10 2 ≠ 0) := by
  rw [getLsbD_11_iff, extract_10_ne_zero_iff]
  have hoff := headerOff_eq h
  cases headerDev h <;> simp [Dev.span] <;> omega

/-- The table decodes a header that agrees with one of its rows outside that row's field. -/
theorem find_isSome_of_row {c : GprCount} {d : Dev} {h : Header} {r : Row} (k n : Nat)
    (hk : (decodeTable c d)[k]? = some r)
    (hrow : r.mask = ~~~ fieldAt2 (BitVec.allOnes n) ∧ r.value &&& r.mask = r.value ∧ r.value.toNat % 2 ^ 2 = 0)
    (hlow : h.toNat % 2 ^ 2 = 0) (hhigh : h.toNat / 2 ^ (n + 2) = r.value.toNat / 2 ^ (n + 2)) :
    ((decodeTable c d).find? (Row.hits h)).isSome = true := by
  obtain ⟨hmask, hvalue, hzero⟩ := hrow
  exact List.find?_isSome.mpr
    ⟨r, List.mem_of_getElem? hk, Row.hits_of_toNat n hmask hvalue hhigh (hlow.trans hzero.symm)⟩

/-- Each table takes every header that passes the checks: the default rows do, and FSB.RD, FSB.RD.ZERO and FSB.WR
together (R71). -/
theorem find_isSome_of_check {c : GprCount} {t : Transaction} (h : checkTransaction t = none) :
    ((decodeTable c (headerDev t.header)).find? (Row.hits t.header)).isSome = true := by
  obtain ⟨-, hr, hl, hw⟩ := checkTransaction_none_iff.mp h
  have hdev := headerDev_code t.header
  have hlow : t.header.toNat % 4 = 0 := by simpa using congrArg BitVec.toNat hl
  have hres : ¬ t.header.toNat / 2 ^ 12 % 2 = 1 := fun hbit => by
    rw [headerR, (getLsbD_iff t.header 12).mpr hbit] at hr
    cases hr
  rw [headerOff_eq] at hw
  have hwr : t.header.toNat / 8192 % 2 = 0 ∨ t.header.toNat / 8192 % 2 = 1 := by omega
  cases hd : headerDev t.header with
  | fsb =>
    rw [hd, show Dev.fsb.code.toNat = 0 from rfl] at hdev
    rw [hd, Dev.span] at hw
    rcases hwr with hwr | hwr
    · by_cases hbeyond : t.header.toNat / 1024 % 2 = 0
      · exact find_isSome_of_row 0 8 rfl (by decide) hlow (by simp; omega)
      · exact find_isSome_of_row 1 8 rfl (by decide) hlow (by simp; omega)
    · exact find_isSome_of_row 2 9 rfl (by decide) hlow (by simp; omega)
  | mu =>
    rw [hd, show Dev.mu.code.toNat = 1 from rfl] at hdev
    rcases hwr with hwr | hwr
    · exact find_isSome_of_row 3 10 rfl (by decide) hlow (by simp; omega)
    · exact find_isSome_of_row 5 10 rfl (by decide) hlow (by simp; omega)
  | sim0 =>
    rw [hd, show Dev.sim0.code.toNat = 2 from rfl] at hdev
    rcases hwr with hwr | hwr
    · exact find_isSome_of_row 4 10 rfl (by decide) hlow (by simp; omega)
    · exact find_isSome_of_row 8 10 rfl (by decide) hlow (by simp; omega)
  | tstmr =>
    rw [hd, show Dev.tstmr.code.toNat = 3 from rfl] at hdev
    rw [hd, Dev.span] at hw
    rcases hwr with hwr | hwr
    · exact find_isSome_of_row 2 8 rfl (by decide) hlow (by simp; omega)
    · exact find_isSome_of_row 3 8 rfl (by decide) hlow (by simp; omega)

/-- Every transaction that passes the checks decodes to an instruction of its device (R60, R71). -/
theorem decodeWith_of_check_none {c : GprCount} {t : Transaction} (h : checkTransaction t = none) :
    ∃ i, decodeWith c t = .ok i ∧ i.dev = headerDev t.header := by
  obtain ⟨r, hr⟩ := Option.isSome_iff_exists.mp (find_isSome_of_check (c := c) h)
  exact ⟨_, decodeWith_of_find h hr, build_dev c _ _ _ r (List.mem_of_find?_eq_some hr)⟩

/-- Settles O3: the checks refuse in R60's order, R65's two window clauses are the window check, and what passes every
check is taken by a row of its device. -/
theorem undecodedHeadersAreRefusedByName : Obligations.UndecodedHeadersAreRefusedByName := by
  intro c t
  refine ⟨fun hs => decodeWith_of_check ?_, fun hs hr => decodeWith_of_check ?_,
    fun hs hr hl => decodeWith_of_check ?_,
    fun hs hr hl hd hoff => decodeWith_of_check (checkTransaction_outOfWindow hs hr hl ?_),
    fun hs hr hl hd hoff => decodeWith_of_check (checkTransaction_outOfWindow hs hr hl ?_),
    fun hs hr hl hfsb htstmr => decodeWith_of_check_none ?_⟩
  · exact if_pos hs
  · simp [checkTransaction, headerR, hs, hr]
  · simp only [checkTransaction, headerR, hs, hr, hl, ne_eq, not_true_eq_false, not_false_eq_true, if_false, if_true,
      Bool.false_eq_true]
  · exact fun hw => ((headerOff_lt_span_iff t.header).mp hw).1 ⟨hd, hoff⟩
  · exact fun hw => ((headerOff_lt_span_iff t.header).mp hw).2 ⟨hd, hoff⟩
  · exact checkTransaction_none_iff.mpr ⟨hs, hr, hl, (headerOff_lt_span_iff t.header).mpr ⟨hfsb, htstmr⟩⟩

end Sys2Proof

/-! PROOFS. The family 40_register_file: what RF_READ returns and what RF_WRITE stores and leaves (R74, R75). -/

namespace Sys2Proof.Machine

/-- Of two writes to one offset the last wins: it replaces the whole cell, or both are no-ops (R75). -/
theorem rfWrite_rfWrite_same {n : Nat} (F : RF n) (off : Nat) (w v : Word) :
    rfWrite (rfWrite F off w) off v = rfWrite F off v := by
  by_cases hb : Backed n off
  · rw [rfWrite_backed _ _ hb, rfWrite_backed _ _ hb, rfWrite_backed _ _ hb, Vector.set_set]
  · rw [rfWrite_unbacked F w hb]

/-- Settles O35: each clause is a law of the Register File. -/
theorem registerFileReadsAndWrites : Obligations.RegisterFileReadsAndWrites := by
  intro n F off v
  exact ⟨fun hb => ⟨rfRead_backed F hb, rfWrite_backed F v hb, rfRead_rfWrite_same F v hb⟩,
    fun hb => ⟨rfRead_unbacked F hb, rfWrite_unbacked F v hb⟩,
    fun _ hne => rfRead_rfWrite_other F v hne, fun w => rfWrite_rfWrite_same F off w v, rfWrite_rfRead F off⟩

end Sys2Proof.Machine

/-! PROOFS. The family 41_fuse_shadow_bank: a read beyond the file and a write answer without effect (R85, R86), and only
a RESTORE changes the FSB after construction (R87). -/

namespace Sys2Proof

/-! ## A header put together from its fields (R54, R55) -/

/-- `H` as a number: the fields lie side by side. -/
theorem toNat_mkHeader (d : Dev) (w : Bool) {off : Nat} (ho : off < 4096) :
    (mkHeader d w off).toNat = 16384 * d.code.toNat + 8192 * w.toNat + off := by
  have hd := d.code.isLt
  have hw := w.toNat_lt
  calc (mkHeader d w off).toNat
      = d.code.toNat <<< 14 ||| w.toNat <<< 13 ||| off := by
        simp (disch := omega) only [mkHeader, BitVec.toNat_or, BitVec.toNat_shiftLeft, BitVec.toNat_setWidth,
          BitVec.toNat_ofBool, BitVec.toNat_ofNat, Nat.shiftLeft_eq, Nat.mod_eq_of_lt]
    _ = (2 * d.code.toNat + w.toNat) <<< 13 ||| off := by
        rw [← Nat.shiftLeft_add_eq_or_of_lt (by rw [Nat.shiftLeft_eq]; omega)]
        congr 1
        simp only [Nat.shiftLeft_eq]
        omega
    _ = 16384 * d.code.toNat + 8192 * w.toNat + off := by
        rw [← Nat.shiftLeft_add_eq_or_of_lt (by omega), Nat.shiftLeft_eq]
        omega

theorem headerOff_mkHeader (d : Dev) (w : Bool) {off : Nat} (ho : off < 4096) : headerOff (mkHeader d w off) = off := by
  rw [headerOff_eq, toNat_mkHeader d w ho]
  omega

theorem headerDev_mkHeader (d : Dev) (w : Bool) {off : Nat} (ho : off < 4096) : headerDev (mkHeader d w off) = d := by
  have hinj : ∀ e f : Dev, e.code.toNat = f.code.toNat → e = f := by intro e f; cases e <;> cases f <;> decide
  have hw := w.toNat_lt
  apply hinj
  rw [headerDev_code, toNat_mkHeader d w ho]
  omega

theorem headerW_mkHeader (d : Dev) (w : Bool) {off : Nat} (ho : off < 4096) : headerW (mkHeader d w off) = w := by
  rw [Bool.eq_iff_iff, headerW, getLsbD_iff, toNat_mkHeader d w ho]
  cases w <;> simp <;> omega

theorem headerR_mkHeader (d : Dev) (w : Bool) {off : Nat} (ho : off < 4096) : headerR (mkHeader d w off) = false := by
  rw [Bool.eq_false_iff, headerR, ne_eq, getLsbD_iff, toNat_mkHeader d w ho]
  omega

theorem lowBits_mkHeader (d : Dev) (w : Bool) {off : Nat} (ho : off < 4096) (ha : off % 4 = 0) :
    (mkHeader d w off).extractLsb' 0 2 = 0 := by
  rw [← BitVec.toNat_inj, BitVec.extractLsb'_toNat, toNat_mkHeader d w ho, Nat.shiftRight_zero,
    show (0 : BitVec 2).toNat = 0 from rfl]
  omega

/-! ## A transaction of a device at an aligned offset of its window -/

/-- Every window fits in the twelve bits of `OFF` (R6, R54). -/
theorem Dev.span_le (d : Dev) : d.span ≤ 4096 := by cases d <;> decide

section
variable (d : Dev) (w : Bool) {off : Nat} (v : Word) (hoff : off < d.span) (ha : off % 4 = 0)
include hoff ha

/-- It passes every check of R60. -/
theorem checkTransaction_mkHeader : checkTransaction ⟨mkHeader d w off, 4, v⟩ = none := by
  have ho := Nat.lt_of_lt_of_le hoff d.span_le
  rw [checkTransaction_none_iff]
  refine ⟨rfl, headerR_mkHeader d w ho, lowBits_mkHeader d w ho ha, ?_⟩
  rwa [headerOff_mkHeader d w ho, headerDev_mkHeader d w ho]

/-- It decodes to an instruction of its device, its direction and its offset, for either P_SIM0_GPR_COUNT. -/
theorem decodeWith_mkHeader (c : GprCount) :
    ∃ i, decodeWith c ⟨mkHeader d w off, 4, v⟩ = .ok i ∧ i.dev = d ∧ headerW i.header = w ∧ headerOff i.header = off := by
  have ho := Nat.lt_of_lt_of_le hoff d.span_le
  obtain ⟨i, hi, hdev⟩ := decodeWith_of_check_none (c := c) (checkTransaction_mkHeader d w v hoff ha)
  refine ⟨i, hi, hdev.trans (headerDev_mkHeader d w ho), ?_, ?_⟩
  · rw [decodeWith_ok_header hi, headerW_mkHeader d w ho]
  · rw [decodeWith_ok_header hi, headerOff_mkHeader d w ho]

theorem decode_rd : ∃ i, decode (.rd d off) = .ok i ∧ i.dev = d ∧ headerW i.header = false ∧ headerOff i.header = off :=
  decodeWith_mkHeader d false 0 hoff ha Config.gprCount

theorem decode_wr : ∃ i, decode (.wr d off v) = .ok i ∧ i.dev = d ∧ headerW i.header = true ∧ headerOff i.header = off :=
  decodeWith_mkHeader d true v hoff ha Config.gprCount

end

/-! ## The FSB's instructions -/

/-- FSB.RD is for the offsets of the register file (R61). -/
theorem headerOff_fsbRd_lt (k : BitVec 8) : headerOff (Instr.fsbRd k).header < 0x400 :=
  headerOff_or_fieldAt2_lt (k := 10) 0x0000 k (by decide) (by decide)

/-- A read of the FSB window beyond the register file is FSB.RD.ZERO (R61, R85). -/
theorem eq_fsbRdZero {i : Instr} (hdev : i.dev = .fsb) (hw : headerW i.header = false)
    (hoff : 0x400 ≤ headerOff i.header) : ∃ o, i = .fsbRdZero o := by
  cases i with
  | fsbRdZero o => exact ⟨o, rfl⟩
  | fsbRd k => exact absurd hoff (Nat.not_le.mpr (headerOff_fsbRd_lt k))
  | fsbWr o v =>
    rw [Instr.header, headerW_or_fieldAt2 0x2000 o (by decide)] at hw
    cases hw
  | _ => cases hdev

/-- A write of the FSB window is FSB.WR (R61, R86). -/
theorem eq_fsbWr {i : Instr} (hdev : i.dev = .fsb) (hw : headerW i.header = true) : ∃ o v, i = .fsbWr o v := by
  cases i with
  | fsbWr o v => exact ⟨o, v, rfl⟩
  | fsbRd k =>
    rw [Instr.header, headerW_or_fieldAt2 0x0000 k (by decide)] at hw
    cases hw
  | fsbRdZero o =>
    rw [Instr.header, headerW_or_fieldAt2 0x0400 o (by decide)] at hw
    cases hw
  | _ => cases hdev

end Sys2Proof

namespace Sys2Proof.Machine

/-! ## Reads beyond the file and writes (R85, R86) -/

/-- A step that issues a transaction runs the instruction it decodes to (R17, R60). -/
theorem step_issuing_bus {s : State} {x : Transaction} {i : Instr} (hl : s.Live) (hd : decode x = .ok i) :
    step (s.issuing (.bus x)) = exec i s := by
  rw [step_issuing _ hl.ready, perform, busTransaction_ok hl hd]

theorem exec_fsbRdZero {s : State} (hl : s.Live) (o : BitVec 8) :
    exec (.fsbRdZero o) s = .next (s.setResp (.rdata 0)) := onLive_of_live hl

theorem exec_fsbWr {s : State} (hl : s.Live) (o : BitVec 9) (v : Word) :
    exec (.fsbWr o v) s = .next (s.setResp .written) := onLive_of_live hl

/-- Settles O19: such a read can only be FSB.RD.ZERO, which answers 0. -/
theorem fsbReadBeyondTheFileIsZero : Obligations.FsbReadBeyondTheFileIsZero := by
  intro s hl off hlo hhi ha
  have hspan : off < Dev.span .fsb := Nat.lt_of_le_of_lt hhi (by decide)
  obtain ⟨i, hd, hdev, hw, hoff⟩ := decode_rd .fsb hspan ha
  obtain ⟨o, rfl⟩ := eq_fsbRdZero hdev hw (hoff ▸ hlo)
  rw [step_issuing_bus hl hd, exec_fsbRdZero hl]

/-- Settles O20: such a write can only be FSB.WR, which is dropped. -/
theorem fsbWriteIsDropped : Obligations.FsbWriteIsDropped := by
  intro s hl off v hhi ha
  have hspan : off < Dev.span .fsb := Nat.lt_of_le_of_lt hhi (by decide)
  obtain ⟨i, hd, hdev, hw, -⟩ := decode_wr .fsb v hspan ha
  obtain ⟨o, u, rfl⟩ := eq_fsbWr hdev hw
  rw [step_issuing_bus hl hd, exec_fsbWr hl]

/-! ## What changes the FSB (R87) -/

/-- No instruction changes the FSB. -/
theorem exec_fsb {i : Instr} {s t : State} (h : exec i s = .next t) : t.fsb = s.fsb := by
  obtain ⟨-, ⟨-, q, -, rfl⟩ | ⟨-, rfl⟩ | ⟨k, v, -, -, -, rfl⟩ | ⟨n, v, -, hd⟩⟩ := exec_cases h
  · rfl
  · rfl
  · rfl
  · obtain ⟨-, rfl⟩ | ⟨-, rfl⟩ := decodeCommand_cases hd <;> rfl

/-- Assigning the fields of another device leaves the FSB. -/
theorem assignFields_fsb {d : Dev} (hd : d ≠ .fsb) (ws : List Word) (s : State) : (assignFields d ws s).fsb = s.fsb := by
  cases d with
  | fsb => exact absurd rfl hd
  | mu | sim0 | tstmr => rfl

/-- An operation that is no RESTORE of the FSB leaves the FSB. -/
theorem perform_fsb {r : Request} {s t : State} (hr : isRestoreOf .fsb r = false) (h : perform r s = .next t) :
    t.fsb = s.fsb := by
  obtain ⟨-, ⟨-, -, q, -, rfl⟩ | ⟨-, -, i, -, he⟩ | ⟨-, d, b, rfl, -, -, rfl⟩⟩ := perform_cases h
  · rfl
  · exact exec_fsb he
  · exact assignFields_fsb (by simpa [isRestoreOf] using hr) b.fields s

/-- A step of a constructed block whose next operation is no RESTORE of the FSB leaves the FSB. -/
theorem step_fsb {s t : State} {r : Request} (hc : s.constructed = true) (hn : s.nextRequest = some r)
    (hr : isRestoreOf .fsb r = false) (h : step s = .next t) : t.fsb = s.fsb := by
  obtain ⟨u, hu, hd⟩ := step_of_nextRequest hc hn h
  have hfsb : u.fsb = (s.setPending s.pending.tail).fsb := perform_fsb hr hu
  obtain ⟨-, rfl⟩ | ⟨l, -, -, -, rfl⟩ := hd <;> exact hfsb

theorem eq_restore_of_isRestoreOf {d : Dev} {r : Request} (h : isRestoreOf d r = true) : ∃ b, r = .restore d b := by
  cases r with
  | restore e b => exact ⟨b, by rw [eq_of_beq h]⟩
  | _ => cases h

/-- A RESTORE that comes next is one that was issued: the firmware's lines are transactions. -/
theorem pending_of_nextRequest_restore {s : State} {d : Dev} {b : Blob} (h : s.nextRequest = some (.restore d b)) :
    ∃ rest, s.pending = .restore d b :: rest := by
  cases hp : s.pending with
  | cons r rest =>
    simp only [State.nextRequest, hp, Option.some.injEq] at h
    exact ⟨rest, by rw [h]⟩
  | nil =>
    simp only [State.nextRequest, hp, Option.map_eq_some_iff] at h
    obtain ⟨l, -, hl⟩ := h
    cases hl

/-- Settles O39: a step that changes the FSB has a next operation, and one that is a RESTORE of the FSB. -/
theorem onlyRestoreChangesTheFsb : Obligations.OnlyRestoreChangesTheFsb := by
  intro s t hc h hne
  cases hn : s.nextRequest with
  | none => exact absurd (congrArg State.fsb (step_of_noRequest hc hn h)) hne
  | some r =>
    cases hr : isRestoreOf .fsb r with
    | false => exact absurd (step_fsb hc hn hr h) hne
    | true =>
      obtain ⟨b, rfl⟩ := eq_restore_of_isRestoreOf hr
      exact ⟨b, pending_of_nextRequest_restore hn⟩

end Sys2Proof.Machine

/-! PROOFS. The family 42_secure_mailbox: the status words read all-ones (R89, R90), every other read answers 0 (R92), and
a write that is no transmit word is dropped (R95). -/

namespace Sys2Proof

/-! ## The MU's instructions -/

theorem headerOff_muRdRr (n : BitVec 2) : headerOff (Instr.muRdRr n).header = 0x280 + 4 * n.toNat :=
  headerOff_or_fieldAt2 0x4280 n (by decide) (by decide)

theorem headerOff_muWrTr (n : BitVec 3) (v : Word) : headerOff (Instr.muWrTr n v).header = 0x200 + 4 * n.toNat :=
  headerOff_or_fieldAt2 0x6200 n (by decide) (by decide)

theorem headerW_muRdRr (n : BitVec 2) : headerW (Instr.muRdRr n).header = false :=
  headerW_or_fieldAt2 0x4280 n (by decide)

theorem headerW_muRdZero (o : BitVec 10) : headerW (Instr.muRdZero o).header = false :=
  headerW_or_fieldAt2 0x4000 o (by decide)

theorem headerW_muWrTr (n : BitVec 3) (v : Word) : headerW (Instr.muWrTr n v).header = true :=
  headerW_or_fieldAt2 0x6200 n (by decide)

theorem headerW_muWrNop (o : BitVec 10) (v : Word) : headerW (Instr.muWrNop o v).header = true :=
  headerW_or_fieldAt2 0x6000 o (by decide)

/-- A read of the MU window outside the status words and the receive words is MU.RD.ZERO (R62, R92). -/
theorem eq_muRdZero {i : Instr} (hdev : i.dev = .mu) (hw : headerW i.header = false)
    (htsr : headerOff i.header ≠ 0x124) (hrsr : headerOff i.header ≠ 0x12C)
    (hrr : ¬ (0x280 ≤ headerOff i.header ∧ headerOff i.header ≤ 0x28C)) : ∃ o, i = .muRdZero o := by
  cases i with
  | muRdZero o => exact ⟨o, rfl⟩
  | muRdTsr => exact absurd (by decide) htsr
  | muRdRsr => exact absurd (by decide) hrsr
  | muRdRr n =>
    rw [headerOff_muRdRr] at hrr
    omega
  | muWrTr n v => cases hw.symm.trans (headerW_muWrTr n v)
  | muWrNop o v => cases hw.symm.trans (headerW_muWrNop o v)
  | _ => cases hdev

/-- A write of the MU window outside the transmit words is MU.WR.NOP (R62, R95). -/
theorem eq_muWrNop {i : Instr} (hdev : i.dev = .mu) (hw : headerW i.header = true)
    (htr : ¬ (0x200 ≤ headerOff i.header ∧ headerOff i.header ≤ 0x21C)) : ∃ o v, i = .muWrNop o v := by
  cases i with
  | muWrNop o v => exact ⟨o, v, rfl⟩
  | muWrTr n v =>
    rw [headerOff_muWrTr] at htr
    omega
  | muRdTsr | muRdRsr => cases hw
  | muRdRr n => cases hw.symm.trans (headerW_muRdRr n)
  | muRdZero o => cases hw.symm.trans (headerW_muRdZero o)
  | _ => cases hdev

/-- The exact rows of R62 take the two status words. -/
theorem decode_rd_mu_tsr : decode (.rd .mu 0x124) = .ok .muRdTsr :=
  decodeWith_of_index .mu 0 (by decide) (by decide) (by decide) rfl

theorem decode_rd_mu_rsr : decode (.rd .mu 0x12C) = .ok .muRdRsr :=
  decodeWith_of_index .mu 1 (by decide) (by decide) (by decide) rfl

end Sys2Proof

namespace Sys2Proof.Machine

/-! ## Reads without a cell behind them and dropped writes (R89, R90, R92, R95) -/

theorem exec_muRdTsr {s : State} (hl : s.Live) : exec .muRdTsr s = .next (s.setResp (.rdata 0xFFFFFFFF)) :=
  onLive_of_live hl

theorem exec_muRdRsr {s : State} (hl : s.Live) : exec .muRdRsr s = .next (s.setResp (.rdata 0xFFFFFFFF)) :=
  onLive_of_live hl

theorem exec_muRdZero {s : State} (hl : s.Live) (o : BitVec 10) :
    exec (.muRdZero o) s = .next (s.setResp (.rdata 0)) := onLive_of_live hl

theorem exec_muWrNop {s : State} (hl : s.Live) (o : BitVec 10) (v : Word) :
    exec (.muWrNop o v) s = .next (s.setResp .written) := onLive_of_live hl

/-- Settles O21: the two offsets decode to MU.RD.TSR and MU.RD.RSR, which answer a constant. -/
theorem muStatusWordsReadAllOnes : Obligations.MuStatusWordsReadAllOnes := by
  intro s hl
  constructor
  · rw [step_issuing_bus hl decode_rd_mu_tsr, exec_muRdTsr hl]
  · rw [step_issuing_bus hl decode_rd_mu_rsr, exec_muRdRsr hl]

/-- Settles O23: such a read can only be MU.RD.ZERO, which answers 0. -/
theorem otherMuReadsAreZero : Obligations.OtherMuReadsAreZero := by
  intro s hl off hhi ha htsr hrsr hrr
  have hspan : off < Dev.span .mu := Nat.lt_of_le_of_lt hhi (by decide)
  obtain ⟨i, hd, hdev, hw, rfl⟩ := decode_rd .mu hspan ha
  obtain ⟨o, rfl⟩ := eq_muRdZero hdev hw htsr hrsr hrr
  rw [step_issuing_bus hl hd, exec_muRdZero hl]

/-- Settles O26: such a write can only be MU.WR.NOP, which is dropped: it neither stores, nor decodes, nor logs. -/
theorem otherMuWritesAreDropped : Obligations.OtherMuWritesAreDropped := by
  intro s hl off v hhi ha htr
  have hspan : off < Dev.span .mu := Nat.lt_of_le_of_lt hhi (by decide)
  obtain ⟨i, hd, hdev, hw, rfl⟩ := decode_wr .mu v hspan ha
  obtain ⟨o, u, rfl⟩ := eq_muWrNop hdev hw htr
  rw [step_issuing_bus hl hd, exec_muWrNop hl]

end Sys2Proof.Machine

/-! PROOFS. The family 43_domain_control_block: the status word reads all-ones and ignores writes (R99, R104), every read
that is neither it nor a GPR answers 0 (R101), and a write that is no GPR is dropped (R103). -/

namespace Sys2Proof

/-! ## SIM0's instructions -/

/-- The GPR patterns take no offset outside 0x10 to 0x34 (R63). -/
theorem gprIndex_eq_none {i : Instr} (hgpr : ¬ (0x10 ≤ headerOff i.header ∧ headerOff i.header ≤ 0x34)) :
    i.gprIndex = none := by
  cases hk : i.gprIndex with
  | none => rfl
  | some k =>
    have hoff := headerOff_of_gprIndex hk
    rcases gprIndex_cases hk with hlt | ⟨rfl, -⟩ <;> omega

theorem headerW_sim0RdZero (o : BitVec 10) : headerW (Instr.sim0RdZero o).header = false :=
  headerW_or_fieldAt2 0x8000 o (by decide)

theorem headerW_sim0WrNop (o : BitVec 10) (v : Word) : headerW (Instr.sim0WrNop o v).header = true :=
  headerW_or_fieldAt2 0xA000 o (by decide)

/-- A read of the SIM0 window outside the status word and the GPRs is SIM0.RD.ZERO (R63, R101). -/
theorem eq_sim0RdZero {i : Instr} (hdev : i.dev = .sim0) (hw : headerW i.header = false)
    (hstat : headerOff i.header ≠ 0x8) (hgpr : ¬ (0x10 ≤ headerOff i.header ∧ headerOff i.header ≤ 0x34)) :
    ∃ o, i = .sim0RdZero o := by
  have hnone := gprIndex_eq_none hgpr
  cases i with
  | sim0RdZero o => exact ⟨o, rfl⟩
  | sim0RdStat => exact absurd (by decide) hstat
  | sim0RdGprA | sim0RdGprB | sim0RdGprC | sim0WrGprA | sim0WrGprB | sim0WrGprC => cases hnone
  | sim0WrNop o v => cases hw.symm.trans (headerW_sim0WrNop o v)
  | _ => cases hdev

/-- A write of the SIM0 window outside the GPRs is SIM0.WR.NOP, at the status word too (R63, R103). -/
theorem eq_sim0WrNop {i : Instr} (hdev : i.dev = .sim0) (hw : headerW i.header = true)
    (hgpr : ¬ (0x10 ≤ headerOff i.header ∧ headerOff i.header ≤ 0x34)) : ∃ o v, i = .sim0WrNop o v := by
  have hnone := gprIndex_eq_none hgpr
  cases i with
  | sim0WrNop o v => exact ⟨o, v, rfl⟩
  | sim0RdStat => cases hw
  | sim0RdGprA | sim0RdGprB | sim0RdGprC | sim0WrGprA | sim0WrGprB | sim0WrGprC => cases hnone
  | sim0RdZero o => cases hw.symm.trans (headerW_sim0RdZero o)
  | _ => cases hdev

/-- The exact row of R63 takes the status word. -/
theorem decode_rd_sim0_stat : decode (.rd .sim0 0x8) = .ok .sim0RdStat :=
  decodeWith_of_index .sim0 0 (by decide) (by decide) (by decide) rfl

end Sys2Proof

namespace Sys2Proof.Machine

/-! ## The status word, reads without a cell behind them and dropped writes (R99, R101, R103, R104) -/

theorem exec_sim0RdStat {s : State} (hl : s.Live) : exec .sim0RdStat s = .next (s.setResp (.rdata 0xFFFFFFFF)) :=
  onLive_of_live hl

theorem exec_sim0RdZero {s : State} (hl : s.Live) (o : BitVec 10) :
    exec (.sim0RdZero o) s = .next (s.setResp (.rdata 0)) := onLive_of_live hl

theorem exec_sim0WrNop {s : State} (hl : s.Live) (o : BitVec 10) (v : Word) :
    exec (.sim0WrNop o v) s = .next (s.setResp .written) := onLive_of_live hl

/-- Settles O29: such a read can only be SIM0.RD.ZERO, which answers 0. -/
theorem otherSim0ReadsAreZero : Obligations.OtherSim0ReadsAreZero := by
  intro s hl off hhi ha hstat hgpr
  have hspan : off < Dev.span .sim0 := Nat.lt_of_le_of_lt hhi (by decide)
  obtain ⟨i, hd, hdev, hw, rfl⟩ := decode_rd .sim0 hspan ha
  obtain ⟨o, rfl⟩ := eq_sim0RdZero hdev hw hstat hgpr
  rw [step_issuing_bus hl hd, exec_sim0RdZero hl]

/-- Settles O31: such a write can only be SIM0.WR.NOP, which is dropped. -/
theorem otherSim0WritesAreDropped : Obligations.OtherSim0WritesAreDropped := by
  intro s hl off v hhi ha hgpr
  have hspan : off < Dev.span .sim0 := Nat.lt_of_le_of_lt hhi (by decide)
  obtain ⟨i, hd, hdev, hw, rfl⟩ := decode_wr .sim0 v hspan ha
  obtain ⟨o, u, rfl⟩ := eq_sim0WrNop hdev hw hgpr
  rw [step_issuing_bus hl hd, exec_sim0WrNop hl]

/-- Settles O27: the read decodes to SIM0.RD.STAT, which answers a constant, and the write is one of those that O31
drops. -/
theorem sim0StatusIsReadOnlyAllOnes : Obligations.Sim0StatusIsReadOnlyAllOnes := by
  intro s hl
  constructor
  · rw [step_issuing_bus hl decode_rd_sim0_stat, exec_sim0RdStat hl]
  · intro v
    exact otherSim0WritesAreDropped s hl 0x8 v (by decide) (by decide) (by decide)

end Sys2Proof.Machine

/-! PROOFS. The family 44_timestamp_counter: every read of the counter's window past offset 0 answers 0 and does not count
(R107, R108). -/

namespace Sys2Proof

/-! ## The counter's instructions -/

theorem headerW_tstmrWrNop (o : BitVec 8) (v : Word) : headerW (Instr.tstmrWrNop o v).header = true :=
  headerW_or_fieldAt2 0xE000 o (by decide)

/-- A read of the TSTMR window past offset 0 is TSTMR.RD.HI or TSTMR.RD.ZERO, never the read that counts (R64). -/
theorem eq_tstmrRdHi_or_tstmrRdZero {i : Instr} (hdev : i.dev = .tstmr) (hw : headerW i.header = false)
    (hoff : 0x4 ≤ headerOff i.header) : i = .tstmrRdHi ∨ ∃ o, i = .tstmrRdZero o := by
  cases i with
  | tstmrRdLo => exact absurd hoff (by decide)
  | tstmrRdHi => exact .inl rfl
  | tstmrRdZero o => exact .inr ⟨o, rfl⟩
  | tstmrWrNop o v => cases hw.symm.trans (headerW_tstmrWrNop o v)
  | _ => cases hdev

end Sys2Proof

namespace Sys2Proof.Machine

/-! ## Reads that do not count (R107, R108) -/

theorem exec_tstmrRdHi {s : State} (hl : s.Live) : exec .tstmrRdHi s = .next (s.setResp (.rdata 0)) :=
  onLive_of_live hl

theorem exec_tstmrRdZero {s : State} (hl : s.Live) (o : BitVec 8) :
    exec (.tstmrRdZero o) s = .next (s.setResp (.rdata 0)) := onLive_of_live hl

/-- Settles O33: such a read can only be TSTMR.RD.HI or TSTMR.RD.ZERO, and both answer 0. -/
theorem otherCounterReadsAreZero : Obligations.OtherCounterReadsAreZero := by
  intro s hl off hlo hhi ha
  have hspan : off < Dev.span .tstmr := Nat.lt_of_le_of_lt hhi (by decide)
  obtain ⟨i, hd, hdev, hw, hoff⟩ := decode_rd .tstmr hspan ha
  rw [step_issuing_bus hl hd]
  obtain rfl | ⟨o, rfl⟩ := eq_tstmrRdHi_or_tstmrRdZero hdev hw (hoff ▸ hlo)
  · exact exec_tstmrRdHi hl
  · exact exec_tstmrRdZero hl o

end Sys2Proof.Machine

/-! PROOFS. The family 'other', encoding: rows of one table meet only at the default rows (R60), the header is put
together from its fields (R54), and decoding and encoding are inverse on the well-formed instructions (R61 to R64). -/

namespace Sys2Proof

/-! ## Rows that take the same header (R60) -/

/-- The default rows of R62 to R64: their device and their place in its table. -/
def defaultRows : List (Dev × Nat) := [(.mu, 3), (.mu, 5), (.sim0, 4), (.sim0, 8), (.tstmr, 2)]

/-- The bits that both rows look at are the same in both match values. -/
def Row.agrees (r q : Row) : Bool := r.value &&& q.mask == q.value &&& r.mask

/-- Two rows that take one header agree: it holds both match values. -/
theorem Row.agrees_of_hits {h : Header} {r q : Row} (hr : r.hits h = true) (hq : q.hits h = true) :
    r.agrees q = true := by
  rw [Row.hits_iff] at hr hq
  rw [Row.agrees, beq_iff_eq, ← hr, ← hq, BitVec.and_assoc, BitVec.and_assoc, BitVec.and_comm r.mask]

/-- In the tables only default rows agree with a row before them. -/
theorem mem_defaultRows_of_agrees (c : GprCount) (d : Dev) : ∀ j : Fin (decodeTable c d).length, ∀ i : Fin j,
    (decodeTable c d)[i].agrees (decodeTable c d)[j] = true → (d, j.val) ∈ defaultRows := by
  cases c <;> cases d <;> decide

/-- Settles O6: the match values of two rows that take one header agree, and that is a finite check of the tables. -/
theorem onlyDefaultRowsOverlap : Obligations.OnlyDefaultRowsOverlap := by
  intro c d h i j r q hij hr hq hhr hhq
  obtain ⟨hi, rfl⟩ := List.getElem?_eq_some_iff.mp hr
  obtain ⟨hj, rfl⟩ := List.getElem?_eq_some_iff.mp hq
  exact mem_defaultRows_of_agrees c d ⟨j, hj⟩ ⟨i, hij⟩ (Row.agrees_of_hits hhr hhq)

/-- A row that is no default row decodes every header it hits: no earlier row takes it. -/
theorem decodeWith_of_row {c : GprCount} {d : Dev} {h : Header} {v : Word} {r : Row} (k : Nat)
    (hc : checkTransaction ⟨h, 4, v⟩ = none) (hd : headerDev h = d) (hk : (decodeTable c d)[k]? = some r)
    (hk' : (d, k) ∉ defaultRows) (hh : r.hits h = true) : decodeWith c ⟨h, 4, v⟩ = .ok (r.build h v) := by
  subst hd
  obtain ⟨hlt, rfl⟩ := List.getElem?_eq_some_iff.mp hk
  refine decodeWith_of_find (t := ⟨h, 4, v⟩) hc (List.find?_eq_some_iff_getElem.mpr ⟨hh, k, hlt, rfl, fun j hj => ?_⟩)
  by_contra hhit
  exact hk' (onlyDefaultRowsOverlap c _ h j k _ _ hj (List.getElem?_eq_getElem _) hk (by simpa using hhit) hh)

/-- A row takes its match value with any field filled in that its mask leaves out. -/
theorem Row.hits_or_fieldAt2 {n : Nat} {r : Row} {m : Header} (x : BitVec n) (hn : n ≤ 10) (hvalue : m &&& r.mask = r.value)
    (hmask : fieldAt2 (BitVec.allOnes n) &&& r.mask = 0#16) : r.hits (m ||| fieldAt2 x) = true := by
  have hx : fieldAt2 x = fieldAt2 x &&& fieldAt2 (BitVec.allOnes n) := by
    have hcut := fieldAt2_extract (0#16 ||| fieldAt2 x) n
    rwa [extract_fieldAt2 0#16 x hn (by simp), BitVec.zero_or] at hcut
  rw [Row.hits_iff, BitVec.and_comm, BitVec.and_or_distrib_left, BitVec.and_comm _ m, hvalue, hx, BitVec.and_comm,
    BitVec.and_assoc, hmask, BitVec.and_zero, BitVec.or_zero]

/-! ## The header's fields (R54) -/

/-- Settles O7: each field is read back from the number the fields make up. -/
theorem headerCarriesItsFields : Obligations.HeaderCarriesItsFields := fun d w _ ho =>
  ⟨headerDev_mkHeader d w ho, headerW_mkHeader d w ho, headerR_mkHeader d w ho, headerOff_mkHeader d w ho⟩

/-- A header is its four fields. -/
theorem header_ext {h g : Header} (hdev : headerDev h = headerDev g) (hw : headerW h = headerW g)
    (hr : headerR h = headerR g) (hoff : headerOff h = headerOff g) : h = g := by
  have hdev' := (headerDev_code h).symm.trans ((congrArg (·.code.toNat) hdev).trans (headerDev_code g))
  rw [Bool.eq_iff_iff, headerW, headerW, getLsbD_iff, getLsbD_iff] at hw
  rw [Bool.eq_iff_iff, headerR, headerR, getLsbD_iff, getLsbD_iff] at hr
  rw [headerOff_eq, headerOff_eq] at hoff
  apply BitVec.eq_of_toNat_eq
  omega

/-- The header of every instruction addresses its device and passes the checks of R60. -/
theorem headerFields : ∀ i : Instr, Laws.HeaderFields.Statement i
  | .fsbRd i => Laws.HeaderFields.fsbRd i
  | .fsbRdZero o => Laws.HeaderFields.fsbRdZero o
  | .fsbWr o v => Laws.HeaderFields.fsbWr o v
  | .muRdTsr => Laws.HeaderFields.muRdTsr
  | .muRdRsr => Laws.HeaderFields.muRdRsr
  | .muRdRr n => Laws.HeaderFields.muRdRr n
  | .muRdZero o => Laws.HeaderFields.muRdZero o
  | .muWrTr n v => Laws.HeaderFields.muWrTr n v
  | .muWrNop o v => Laws.HeaderFields.muWrNop o v
  | .sim0RdStat => Laws.HeaderFields.sim0RdStat
  | .sim0RdGprA i => Laws.HeaderFields.sim0RdGprA i
  | .sim0RdGprB i => Laws.HeaderFields.sim0RdGprB i
  | .sim0RdGprC i => Laws.HeaderFields.sim0RdGprC i
  | .sim0RdZero o => Laws.HeaderFields.sim0RdZero o
  | .sim0WrGprA i v => Laws.HeaderFields.sim0WrGprA i v
  | .sim0WrGprB i v => Laws.HeaderFields.sim0WrGprB i v
  | .sim0WrGprC i v => Laws.HeaderFields.sim0WrGprC i v
  | .sim0WrNop o v => Laws.HeaderFields.sim0WrNop o v
  | .tstmrRdLo => Laws.HeaderFields.tstmrRdLo
  | .tstmrRdHi => Laws.HeaderFields.tstmrRdHi
  | .tstmrRdZero o => Laws.HeaderFields.tstmrRdZero o
  | .tstmrWrNop o v => Laws.HeaderFields.tstmrWrNop o v

theorem headerDev_header (i : Instr) : headerDev i.header = i.dev := (headerFields i).1

theorem headerR_header (i : Instr) : headerR i.header = false :=
  (checkTransaction_none_iff.mp (headerFields i).2).2.1

/-- The checks of R60 do not look at `WDATA`. -/
theorem checkTransaction_header (i : Instr) (v : Word) : checkTransaction ⟨i.header, 4, v⟩ = none :=
  (headerFields i).2

/-- Two instructions of one device, direction and offset have one header. -/
theorem header_eq_of_fields {i j : Instr} (hdev : i.dev = j.dev) (hw : headerW i.header = headerW j.header)
    (hoff : headerOff i.header = headerOff j.header) : i.header = j.header :=
  header_ext (by rw [headerDev_header, headerDev_header, hdev]) hw (by rw [headerR_header, headerR_header]) hoff

/-- The transaction that names an instruction's device, direction and offset has the instruction's header (R67). -/
theorem mkHeader_eq_header {i : Instr} {d : Dev} {w : Bool} {off : Nat} (hdev : i.dev = d) (hw : headerW i.header = w)
    (hoff : headerOff i.header = off) : mkHeader d w off = i.header := by
  have ho : off < 4096 := by
    rw [← hoff, headerOff_eq]
    omega
  exact header_ext (by rw [headerDev_mkHeader d w ho, headerDev_header, hdev]) (by rw [headerW_mkHeader d w ho, hw])
    (by rw [headerR_mkHeader d w ho, headerR_header]) (by rw [headerOff_mkHeader d w ho, hoff])

end Sys2Proof

namespace Sys2Proof

/-! ## Direction and offset of an instruction -/

/-- The instruction writes (R53, R54). -/
def Instr.isWrite : Instr → Bool
  | .fsbWr _ _ | .muWrTr _ _ | .muWrNop _ _ => true
  | .sim0WrGprA _ _ | .sim0WrGprB _ _ | .sim0WrGprC _ _ | .sim0WrNop _ _ => true
  | .tstmrWrNop _ _ => true
  | .fsbRd _ | .fsbRdZero _ | .muRdTsr | .muRdRsr | .muRdRr _ | .muRdZero _ => false
  | .sim0RdStat | .sim0RdGprA _ | .sim0RdGprB _ | .sim0RdGprC _ | .sim0RdZero _ => false
  | .tstmrRdLo | .tstmrRdHi | .tstmrRdZero _ => false

/-- `W` of an instruction's header says whether it writes. -/
theorem headerW_header (i : Instr) : headerW i.header = i.isWrite := by
  cases i <;>
  · simp only [Instr.header, headerW_or_fieldAt2, Nat.reduceLeDiff, le_refl]
    rfl

theorem headerOff_fsbRd (i : BitVec 8) : headerOff (Instr.fsbRd i).header = byteOffset i :=
  (headerOff_or_fieldAt2 0x0000 i (by decide) (by decide)).trans (Nat.zero_add _)

theorem headerOff_muRdZero (o : BitVec 10) : headerOff (Instr.muRdZero o).header = byteOffset o :=
  (headerOff_or_fieldAt2 0x4000 o (by decide) (by decide)).trans (Nat.zero_add _)

theorem headerOff_muWrNop (o : BitVec 10) (v : Word) : headerOff (Instr.muWrNop o v).header = byteOffset o :=
  (headerOff_or_fieldAt2 0x6000 o (by decide) (by decide)).trans (Nat.zero_add _)

theorem headerOff_sim0RdZero (o : BitVec 10) : headerOff (Instr.sim0RdZero o).header = byteOffset o :=
  (headerOff_or_fieldAt2 0x8000 o (by decide) (by decide)).trans (Nat.zero_add _)

theorem headerOff_sim0WrNop (o : BitVec 10) (v : Word) : headerOff (Instr.sim0WrNop o v).header = byteOffset o :=
  (headerOff_or_fieldAt2 0xA000 o (by decide) (by decide)).trans (Nat.zero_add _)

theorem headerOff_tstmrRdZero (o : BitVec 8) : headerOff (Instr.tstmrRdZero o).header = byteOffset o :=
  (headerOff_or_fieldAt2 0xC000 o (by decide) (by decide)).trans (Nat.zero_add _)

/-! ## Decoding a header that an instruction encodes to -/

/-- A header decodes, and what it decodes to agrees with every instruction of that header in device and header, and
carries the `WDATA` if it writes. -/
theorem decodeWith_header_some (c : GprCount) (i : Instr) (v : Word) : ∃ j, decodeWith c ⟨i.header, 4, v⟩ = .ok j ∧
    j.dev = i.dev ∧ j.header = i.header ∧ (j.isWrite = true → j.wdata = v) := by
  obtain ⟨j, hj, hdev⟩ := decodeWith_of_check_none (c := c) (checkTransaction_header i v)
  exact ⟨j, hj, hdev.trans (headerDev_header i), decodeWith_ok_header hj,
    fun hw => decodeWith_ok_wdata hj ((headerW_header j).trans hw)⟩

/-- A row with a field that is no default row decodes its own headers, whatever the field. -/
theorem decodeWith_fieldRow {c : GprCount} {d : Dev} {n : Nat} {mask m : Header} (build : BitVec n → Word → Instr)
    (x : BitVec n) (v : Word) (k : Nat)
    (hk : (decodeTable c d)[k]? = some ⟨mask, m, fun h v => build (h.extractLsb' 2 n) v⟩) (hk' : (d, k) ∉ defaultRows)
    (hdev : (build x v).dev = d) (hh : (build x v).header = m ||| fieldAt2 x)
    (hbits : n ≤ 10 ∧ m &&& mask = m ∧ fieldAt2 (BitVec.allOnes n) &&& mask = 0#16 ∧
      ∀ j, j < n → m.getLsbD (2 + j) = false) :
    decodeWith c ⟨(build x v).header, 4, v⟩ = .ok (build x v) := by
  obtain ⟨hn, hvalue, hmask, hm⟩ := hbits
  rw [decodeWith_of_row k (checkTransaction_header _ v) ((headerDev_header _).trans hdev) hk hk'
    (hh ▸ Row.hits_or_fieldAt2 x hn hvalue hmask), hh]
  exact congrArg (fun y => Except.ok (build y v)) (extract_fieldAt2 m x hn hm)

/-- A row without a field decodes its match value. -/
theorem decodeWith_exactRow {c : GprCount} {d : Dev} {i : Instr} (v : Word) (k : Nat)
    (hk : (decodeTable c d)[k]? = some ⟨0xFFFF, i.header, fun _ _ => i⟩) (hk' : (d, k) ∉ defaultRows)
    (hdev : i.dev = d) : decodeWith c ⟨i.header, 4, v⟩ = .ok i :=
  decodeWith_of_row k (checkTransaction_header i v) ((headerDev_header i).trans hdev) hk hk'
    (Row.hits_iff.mpr BitVec.and_allOnes)

/-- A field is determined by the header it is filled into. -/
theorem fieldAt2_inj {n : Nat} {m : Header} {x y : BitVec n} (hn : n ≤ 10)
    (hm : ∀ j, j < n → m.getLsbD (2 + j) = false) (h : m ||| fieldAt2 x = m ||| fieldAt2 y) : x = y := by
  rw [← extract_fieldAt2 m x hn hm, h, extract_fieldAt2 m y hn hm]

/-- The default rows: such an instruction is the only reading of a header of its device, direction and an offset that
no other row takes. -/
theorem decodeWith_header_muRdZero (c : GprCount) {o : BitVec 10} (v : Word)
    (hwf : (Instr.muRdZero o).wellFormedWith c = true) :
    decodeWith c ⟨(Instr.muRdZero o).header, 4, v⟩ = .ok (.muRdZero o) := by
  obtain ⟨j, hj, hdev, hh, -⟩ := decodeWith_header_some c (.muRdZero o) v
  simp only [Instr.wellFormedWith, muReadHandled, ← headerOff_muRdZero, ← hh, Bool.not_eq_true', Bool.or_eq_false_iff,
    beq_eq_false_iff_ne, Bool.and_eq_false_iff, decide_eq_false_iff_not] at hwf
  obtain ⟨⟨htsr, hrsr⟩, hrr⟩ := hwf
  obtain ⟨q, rfl⟩ := eq_muRdZero hdev (hh ▸ headerW_header (.muRdZero o)) htsr hrsr (by omega)
  rw [hj, fieldAt2_inj (by decide) (by decide) hh]

theorem decodeWith_header_muWrNop (c : GprCount) {o : BitVec 10} {v : Word}
    (hwf : (Instr.muWrNop o v).wellFormedWith c = true) :
    decodeWith c ⟨(Instr.muWrNop o v).header, 4, v⟩ = .ok (.muWrNop o v) := by
  obtain ⟨j, hj, hdev, hh, hv⟩ := decodeWith_header_some c (.muWrNop o v) v
  simp only [Instr.wellFormedWith, muWriteHandled, ← headerOff_muWrNop o v, ← hh, Bool.not_eq_true',
    Bool.and_eq_false_iff, decide_eq_false_iff_not] at hwf
  obtain ⟨q, u, rfl⟩ := eq_muWrNop hdev (hh ▸ headerW_header (.muWrNop o v)) (by omega)
  obtain rfl : u = v := hv rfl
  rw [hj, fieldAt2_inj (by decide) (by decide) hh]

theorem decodeWith_header_sim0RdZero (c : GprCount) {o : BitVec 10} (v : Word)
    (hwf : (Instr.sim0RdZero o).wellFormedWith c = true) :
    decodeWith c ⟨(Instr.sim0RdZero o).header, 4, v⟩ = .ok (.sim0RdZero o) := by
  obtain ⟨j, hj, hdev, hh, -⟩ := decodeWith_header_some c (.sim0RdZero o) v
  simp only [Instr.wellFormedWith, simGprOffset, Bool.and_eq_true, bne_iff_ne, Bool.not_eq_true',
    Bool.and_eq_false_iff, decide_eq_false_iff_not] at hwf
  obtain ⟨hstat, hgpr⟩ := hwf
  by_cases h34 : byteOffset o = 0x34
  · obtain rfl : o = 13 := BitVec.eq_of_toNat_eq (Nat.eq_of_mul_eq_mul_left (by decide : 0 < 4) h34)
    cases c with
    | nine => exact (decodeWith_nine_0x34 v).1
    | ten => exact absurd hgpr (by decide)
  · have hc : 9 ≤ c.toNat := by cases c <;> decide
    rw [← headerOff_sim0RdZero, ← hh] at hstat hgpr h34
    obtain ⟨q, rfl⟩ := eq_sim0RdZero hdev (hh ▸ headerW_header (.sim0RdZero o)) hstat (by omega)
    rw [hj, fieldAt2_inj (by decide) (by decide) hh]

theorem decodeWith_header_sim0WrNop (c : GprCount) {o : BitVec 10} {v : Word}
    (hwf : (Instr.sim0WrNop o v).wellFormedWith c = true) :
    decodeWith c ⟨(Instr.sim0WrNop o v).header, 4, v⟩ = .ok (.sim0WrNop o v) := by
  obtain ⟨j, hj, hdev, hh, hv⟩ := decodeWith_header_some c (.sim0WrNop o v) v
  simp only [Instr.wellFormedWith, simGprOffset, Bool.not_eq_true', Bool.and_eq_false_iff,
    decide_eq_false_iff_not] at hwf
  by_cases h34 : byteOffset o = 0x34
  · obtain rfl : o = 13 := BitVec.eq_of_toNat_eq (Nat.eq_of_mul_eq_mul_left (by decide : 0 < 4) h34)
    cases c with
    | nine => exact (decodeWith_nine_0x34 v).2
    | ten => exact absurd hwf (by decide)
  · have hc : 9 ≤ c.toNat := by cases c <;> decide
    rw [← headerOff_sim0WrNop o v, ← hh] at hwf h34
    obtain ⟨q, u, rfl⟩ := eq_sim0WrNop hdev (hh ▸ headerW_header (.sim0WrNop o v)) (by omega)
    obtain rfl : u = v := hv rfl
    rw [hj, fieldAt2_inj (by decide) (by decide) hh]

theorem decodeWith_header_tstmrRdZero (c : GprCount) {o : BitVec 8} (v : Word)
    (hwf : (Instr.tstmrRdZero o).wellFormedWith c = true) :
    decodeWith c ⟨(Instr.tstmrRdZero o).header, 4, v⟩ = .ok (.tstmrRdZero o) := by
  obtain ⟨j, hj, hdev, hh, -⟩ := decodeWith_header_some c (.tstmrRdZero o) v
  simp only [Instr.wellFormedWith, Bool.and_eq_true, bne_iff_ne, ← headerOff_tstmrRdZero, ← hh] at hwf
  obtain ⟨hlo, hhi⟩ := hwf
  have hoff := headerOff_tstmrRdZero o
  rw [← hh, byteOffset] at hoff
  obtain rfl | ⟨q, rfl⟩ := eq_tstmrRdHi_or_tstmrRdZero hdev (hh ▸ headerW_header (.tstmrRdZero o)) (by omega)
  · exact absurd (by decide) hhi
  · rw [hj, fieldAt2_inj (by decide) (by decide) hh]

/-- The third SIM0 GPR pattern takes 0x30 under either P_SIM0_GPR_COUNT, and 0x34 with ten GPRs (R63). -/
theorem decodeWith_header_sim0RdGprC (c : GprCount) {i : BitVec 1} (v : Word)
    (hwf : (Instr.sim0RdGprC i).wellFormedWith c = true) :
    decodeWith c ⟨(Instr.sim0RdGprC i).header, 4, v⟩ = .ok (.sim0RdGprC i) := by
  cases c with
  | ten => exact decodeWith_fieldRow (d := .sim0) (fun x _ => .sim0RdGprC x) i v 3 rfl (by decide) rfl rfl (by decide)
  | nine =>
    obtain rfl | rfl := BitVec.eq_zero_or_eq_one i
    · exact decodeWith_of_index .sim0 3 (by decide) (by decide) (by decide) rfl
    · cases hwf

theorem decodeWith_header_sim0WrGprC (c : GprCount) {i : BitVec 1} {v : Word}
    (hwf : (Instr.sim0WrGprC i v).wellFormedWith c = true) :
    decodeWith c ⟨(Instr.sim0WrGprC i v).header, 4, v⟩ = .ok (.sim0WrGprC i v) := by
  cases c with
  | ten => exact decodeWith_fieldRow (d := .sim0) .sim0WrGprC i v 7 rfl (by decide) rfl rfl (by decide)
  | nine =>
    obtain rfl | rfl := BitVec.eq_zero_or_eq_one i
    · exact decodeWith_of_index (h := 0xA030) .sim0 7 (by decide) (by decide) (by decide) rfl
    · cases hwf

/-- Every header a well-formed instruction encodes to decodes to it, whatever `WDATA` a read carries (R53). -/
theorem decodeWith_header (c : GprCount) (i : Instr) (v : Word) (hwf : i.wellFormedWith c = true)
    (hv : i.isWrite = true → v = i.wdata) : decodeWith c ⟨i.header, 4, v⟩ = .ok i := by
  cases i with
  | fsbRd x => exact decodeWith_fieldRow (d := .fsb) (fun x _ => .fsbRd x) x v 0 rfl (by decide) rfl rfl (by decide)
  | fsbRdZero o =>
    exact decodeWith_fieldRow (d := .fsb) (fun x _ => .fsbRdZero x) o v 1 rfl (by decide) rfl rfl (by decide)
  | fsbWr o u =>
    obtain rfl : v = u := hv rfl
    exact decodeWith_fieldRow (d := .fsb) .fsbWr o v 2 rfl (by decide) rfl rfl (by decide)
  | muRdTsr => exact decodeWith_exactRow (d := .mu) v 0 rfl (by decide) rfl
  | muRdRsr => exact decodeWith_exactRow (d := .mu) v 1 rfl (by decide) rfl
  | muRdRr n => exact decodeWith_fieldRow (d := .mu) (fun x _ => .muRdRr x) n v 2 rfl (by decide) rfl rfl (by decide)
  | muRdZero o => exact decodeWith_header_muRdZero c v hwf
  | muWrTr n u =>
    obtain rfl : v = u := hv rfl
    exact decodeWith_fieldRow (d := .mu) .muWrTr n v 4 rfl (by decide) rfl rfl (by decide)
  | muWrNop o u =>
    obtain rfl : v = u := hv rfl
    exact decodeWith_header_muWrNop c hwf
  | sim0RdStat => exact decodeWith_exactRow (d := .sim0) v 0 rfl (by decide) rfl
  | sim0RdGprA i =>
    exact decodeWith_fieldRow (d := .sim0) (fun x _ => .sim0RdGprA x) i v 1 rfl (by decide) rfl rfl (by decide)
  | sim0RdGprB i =>
    exact decodeWith_fieldRow (d := .sim0) (fun x _ => .sim0RdGprB x) i v 2 rfl (by decide) rfl rfl (by decide)
  | sim0RdGprC i => exact decodeWith_header_sim0RdGprC c v hwf
  | sim0RdZero o => exact decodeWith_header_sim0RdZero c v hwf
  | sim0WrGprA i u =>
    obtain rfl : v = u := hv rfl
    exact decodeWith_fieldRow (d := .sim0) .sim0WrGprA i v 5 rfl (by decide) rfl rfl (by decide)
  | sim0WrGprB i u =>
    obtain rfl : v = u := hv rfl
    exact decodeWith_fieldRow (d := .sim0) .sim0WrGprB i v 6 rfl (by decide) rfl rfl (by decide)
  | sim0WrGprC i u =>
    obtain rfl : v = u := hv rfl
    exact decodeWith_header_sim0WrGprC c hwf
  | sim0WrNop o u =>
    obtain rfl : v = u := hv rfl
    exact decodeWith_header_sim0WrNop c hwf
  | tstmrRdLo => exact decodeWith_exactRow (d := .tstmr) v 0 rfl (by decide) rfl
  | tstmrRdHi => exact decodeWith_exactRow (d := .tstmr) v 1 rfl (by decide) rfl
  | tstmrRdZero o => exact decodeWith_header_tstmrRdZero c v hwf
  | tstmrWrNop o u =>
    obtain rfl : v = u := hv rfl
    exact decodeWith_fieldRow (d := .tstmr) .tstmrWrNop o v 3 rfl (by decide) rfl rfl (by decide)

/-- Settles O1: a row that is no default row decodes its own headers, and a default row's instruction is the only
reading of its offset. -/
theorem decodeOfEncodeIsIdentity : Obligations.DecodeOfEncodeIsIdentity := fun c i hwf =>
  decodeWith_header c i i.wdata hwf fun _ => rfl

end Sys2Proof

namespace Sys2Proof

/-! ## The GPR instructions by the number of their GPR (R56, R63) -/

/-- The read of GPR `k`, below 10. -/
def Instr.rdGpr (k : Nat) : Instr :=
  if k < 4 then .sim0RdGprA (BitVec.ofNat 2 k)
  else if k < 8 then .sim0RdGprB (BitVec.ofNat 2 (k - 4)) else .sim0RdGprC (BitVec.ofNat 1 (k - 8))

/-- The write of GPR `k`, below 10. -/
def Instr.wrGpr (k : Nat) (v : Word) : Instr :=
  if k < 4 then .sim0WrGprA (BitVec.ofNat 2 k) v
  else if k < 8 then .sim0WrGprB (BitVec.ofNat 2 (k - 4)) v else .sim0WrGprC (BitVec.ofNat 1 (k - 8)) v

section
variable {k : Nat} (hk : k < 10) (v : Word)
include hk

theorem gprIndex_rdGpr : (Instr.rdGpr k).gprIndex = some k := by
  unfold Instr.rdGpr
  split_ifs <;> simp only [Instr.gprIndex, Machine.gprIndexA, Machine.gprIndexB, Machine.gprIndexC,
    BitVec.toNat_ofNat, Option.some.injEq] <;> omega

theorem gprIndex_wrGpr : (Instr.wrGpr k v).gprIndex = some k := by
  unfold Instr.wrGpr
  split_ifs <;> simp only [Instr.gprIndex, Machine.gprIndexA, Machine.gprIndexB, Machine.gprIndexC,
    BitVec.toNat_ofNat, Option.some.injEq] <;> omega

end

theorem isWrite_rdGpr (k : Nat) : (Instr.rdGpr k).isWrite = false := by
  unfold Instr.rdGpr
  split_ifs <;> rfl

theorem isWrite_wrGpr (k : Nat) (v : Word) : (Instr.wrGpr k v).isWrite = true := by
  unfold Instr.wrGpr
  split_ifs <;> rfl

theorem wdata_wrGpr (k : Nat) (v : Word) : (Instr.wrGpr k v).wdata = v := by
  unfold Instr.wrGpr
  split_ifs <;> rfl

/-- A GPR instruction is one of SIM0. -/
theorem dev_of_gprIndex {i : Instr} {k : Nat} (hk : i.gprIndex = some k) : i.dev = .sim0 := by
  cases i with
  | sim0RdGprA | sim0RdGprB | sim0RdGprC | sim0WrGprA | sim0WrGprB | sim0WrGprC => rfl
  | _ => cases hk

/-- A GPR instruction is well-formed exactly when P_SIM0_GPR_COUNT reaches its GPR (R63). -/
theorem wellFormedWith_of_gprIndex {c : GprCount} {i : Instr} {k : Nat} (hk : i.gprIndex = some k) (hc : k < c.toNat) :
    i.wellFormedWith c = true := by
  cases i with
  | sim0RdGprA | sim0RdGprB | sim0WrGprA | sim0WrGprB => rfl
  | sim0RdGprC | sim0WrGprC =>
    cases hk
    exact decide_eq_true hc
  | _ => cases hk

/-! ## Decoded instructions (R53, R60) -/

/-- A decoded instruction carries `WDATA` if it writes, and 0 if it reads (R53). -/
theorem decodeWith_ok_wdata_eq {c : GprCount} {t : Transaction} {i : Instr} (h : decodeWith c t = .ok i) :
    i.wdata = if headerW t.header then t.wdata else 0 := by
  have hh := decodeWith_ok_header h
  obtain ⟨-, r, hr, rfl⟩ := decodeWith_ok h
  rw [build_wdata c _ _ _ r (List.mem_of_find?_eq_some hr), hh]

/-- A transaction decodes to no other instruction than the well-formed one of its header and `WDATA`. -/
theorem eq_of_decodeWith_ok {c : GprCount} {t : Transaction} {i j : Instr} (hj : decodeWith c t = .ok j)
    (hwf : i.wellFormedWith c = true) (hh : i.header = j.header) (hv : i.isWrite = true → i.wdata = t.wdata) : j = i := by
  rw [decodeWith_ok_header hj] at hh
  obtain ⟨header, size, v⟩ := t
  obtain ⟨hsize, -⟩ := checkTransaction_none_iff.mp (decodeWith_ok hj).1
  cases hsize
  cases hh
  exact Except.ok.inj (hj.symm.trans (decodeWith_header c i v hwf fun hw => (hv hw).symm))

theorem simGprOffset_iff {c : GprCount} {off : Nat} :
    simGprOffset c off = true ↔ 0x10 ≤ off ∧ off < 0x10 + 4 * c.toNat := by
  rw [simGprOffset, Bool.and_eq_true, decide_eq_true_eq, decide_eq_true_eq]

/-- A GPR's offset is that of a word below P_SIM0_GPR_COUNT (R27). -/
theorem simGprOffset_cases {c : GprCount} {off : Nat} (h : simGprOffset c off = true) (ha : off % 4 = 0) :
    ∃ k, k < c.toNat ∧ k < 10 ∧ off = 0x10 + 4 * k := by
  rw [simGprOffset_iff] at h
  have hc : c.toNat ≤ 10 := by cases c <;> decide
  exact ⟨(off - 0x10) / 4, by omega, by omega, by omega⟩

/-! What decodes is well-formed: at an offset with a row of its own, the well-formed instruction of that row has the same
header, so that the default row's instruction is not decoded there. One lemma for each default row. -/

section
variable {c : GprCount} {t : Transaction}

theorem wellFormedWith_of_decode_muRdZero {o : BitVec 10} (h : decodeWith c t = .ok (.muRdZero o)) :
    (Instr.muRdZero o).wellFormedWith c = true := by
  by_contra hwf
  simp only [Instr.wellFormedWith, muReadHandled, Bool.not_eq_true', Bool.not_eq_false, Bool.or_eq_true, beq_iff_eq,
    Bool.and_eq_true, decide_eq_true_eq, ← headerOff_muRdZero] at hwf
  have hw := (headerW_muRdZero o).symm
  obtain (htsr | hrsr) | ⟨hlo, hhi⟩ := hwf
  · cases eq_of_decodeWith_ok h (i := .muRdTsr) rfl (header_eq_of_fields rfl hw htsr.symm) nofun
  · cases eq_of_decodeWith_ok h (i := .muRdRsr) rfl (header_eq_of_fields rfl hw hrsr.symm) nofun
  · have hoff := headerOff_muRdZero o
    rw [byteOffset] at hoff
    cases eq_of_decodeWith_ok h (i := .muRdRr (BitVec.ofNat 2 (o.toNat - 0xA0))) rfl
      (header_eq_of_fields rfl ((headerW_muRdRr _).trans hw) (by rw [headerOff_muRdRr, BitVec.toNat_ofNat]; omega)) nofun

theorem wellFormedWith_of_decode_muWrNop {o : BitVec 10} {v : Word} (h : decodeWith c t = .ok (.muWrNop o v)) :
    (Instr.muWrNop o v).wellFormedWith c = true := by
  by_contra hwf
  simp only [Instr.wellFormedWith, muWriteHandled, Bool.not_eq_true', Bool.not_eq_false, Bool.and_eq_true,
    decide_eq_true_eq, ← headerOff_muWrNop o v] at hwf
  obtain ⟨hlo, hhi⟩ := hwf
  have hoff := headerOff_muWrNop o v
  rw [byteOffset] at hoff
  cases eq_of_decodeWith_ok h (i := .muWrTr (BitVec.ofNat 3 (o.toNat - 0x80)) t.wdata) rfl
    (header_eq_of_fields rfl ((headerW_muWrTr _ _).trans (headerW_muWrNop o v).symm)
      (by rw [headerOff_muWrTr, BitVec.toNat_ofNat]; omega)) fun _ => rfl

/-- No instruction without a GPR is decoded at a GPR's offset when the GPR's own instruction, of the same direction,
carries the same word. -/
theorem headerOff_ne_of_decode {i j : Instr} {k : Nat} (h : decodeWith c t = .ok j) (hdev : j.dev = .sim0)
    (hnone : j.gprIndex = none) (hk : i.gprIndex = some k) (hw : i.isWrite = j.isWrite)
    (hv : i.isWrite = true → i.wdata = t.wdata) (hkc : k < c.toNat) : headerOff j.header ≠ 0x10 + 4 * k := by
  intro hoff
  have heq := eq_of_decodeWith_ok h (wellFormedWith_of_gprIndex hk hkc)
    (header_eq_of_fields ((dev_of_gprIndex hk).trans hdev.symm) (by rw [headerW_header, headerW_header, hw])
      ((headerOff_of_gprIndex hk).trans hoff.symm)) hv
  cases hnone.symm.trans ((congrArg Instr.gprIndex heq).trans hk)

theorem wellFormedWith_of_decode_sim0RdZero {o : BitVec 10} (h : decodeWith c t = .ok (.sim0RdZero o)) :
    (Instr.sim0RdZero o).wellFormedWith c = true := by
  by_contra hwf
  simp only [Instr.wellFormedWith, Bool.and_eq_true, bne_iff_ne, Bool.not_eq_true', not_and_or, Bool.not_eq_false,
    not_not] at hwf
  rcases hwf with hstat | hgpr
  · cases eq_of_decodeWith_ok h (i := .sim0RdStat) rfl (header_eq_of_fields rfl (headerW_sim0RdZero o).symm
      ((headerOff_sim0RdZero o).trans hstat).symm) nofun
  · obtain ⟨k, hkc, hk, hoff⟩ := simGprOffset_cases hgpr (Nat.mul_mod_right 4 _)
    exact headerOff_ne_of_decode h rfl rfl (gprIndex_rdGpr hk) (isWrite_rdGpr k) (by simp [isWrite_rdGpr]) hkc
      ((headerOff_sim0RdZero o).trans hoff)

theorem wellFormedWith_of_decode_sim0WrNop {o : BitVec 10} {v : Word} (h : decodeWith c t = .ok (.sim0WrNop o v)) :
    (Instr.sim0WrNop o v).wellFormedWith c = true := by
  by_contra hwf
  simp only [Instr.wellFormedWith, Bool.not_eq_true', Bool.not_eq_false] at hwf
  obtain ⟨k, hkc, hk, hoff⟩ := simGprOffset_cases hwf (Nat.mul_mod_right 4 _)
  exact headerOff_ne_of_decode h rfl rfl (gprIndex_wrGpr hk t.wdata) (isWrite_wrGpr k t.wdata)
    (fun _ => wdata_wrGpr k t.wdata) hkc ((headerOff_sim0WrNop o v).trans hoff)

theorem wellFormedWith_of_decode_tstmrRdZero {o : BitVec 8} (h : decodeWith c t = .ok (.tstmrRdZero o)) :
    (Instr.tstmrRdZero o).wellFormedWith c = true := by
  by_contra hwf
  simp only [Instr.wellFormedWith, Bool.and_eq_true, bne_iff_ne, not_and_or, not_not, ← headerOff_tstmrRdZero] at hwf
  have hw := (headerW_header (.tstmrRdZero o)).symm
  rcases hwf with hlo | hhi
  · cases eq_of_decodeWith_ok h (i := .tstmrRdLo) rfl (header_eq_of_fields rfl hw hlo.symm) nofun
  · cases eq_of_decodeWith_ok h (i := .tstmrRdHi) rfl (header_eq_of_fields rfl hw hhi.symm) nofun

/-- What decodes is well-formed. -/
theorem decodeWith_ok_wellFormed {i : Instr} (h : decodeWith c t = .ok i) : i.wellFormedWith c = true := by
  cases i with
  | muRdZero o => exact wellFormedWith_of_decode_muRdZero h
  | muWrNop o v => exact wellFormedWith_of_decode_muWrNop h
  | sim0RdGprC | sim0WrGprC => exact wellFormedWith_of_gprIndex rfl (decodeWith_ok_gprIndex h rfl).2.2
  | sim0RdZero o => exact wellFormedWith_of_decode_sim0RdZero h
  | sim0WrNop o v => exact wellFormedWith_of_decode_sim0WrNop h
  | tstmrRdZero o => exact wellFormedWith_of_decode_tstmrRdZero h
  | _ => rfl

end

/-- Settles O2: a decoded instruction is well-formed, and header and `WDATA` are its transaction's. -/
theorem decodedInstructionsEncodeBack : Obligations.DecodedInstructionsEncodeBack := fun _ _ _ h =>
  ⟨decodeWith_ok_wellFormed h, by rw [encode, decodeWith_ok_header h, decodeWith_ok_wdata_eq h]⟩

/-- The offsets of nine GPRs are among those of ten. -/
theorem simGprOffset_nine {off : Nat} (h : simGprOffset .ten off = false) : simGprOffset .nine off = false := by
  rw [Bool.eq_false_iff, ne_eq, simGprOffset_iff] at h ⊢
  rw [show GprCount.ten.toNat = 10 from rfl] at h
  rw [show GprCount.nine.toNat = 9 from rfl]
  omega

/-- Only SIM0 offset 0x34 has an instruction that P_SIM0_GPR_COUNT = 10 admits and 9 does not (R63). -/
theorem wellFormedWith_nine {i : Instr} (hwf : i.wellFormedWith .ten = true)
    (hne : ¬ (i.dev = .sim0 ∧ headerOff i.header = 0x34)) : i.wellFormedWith .nine = true := by
  cases hk : i.gprIndex with
  | some k =>
    have hoff := headerOff_of_gprIndex hk
    refine wellFormedWith_of_gprIndex hk ?_
    rcases gprIndex_cases hk with hlt | ⟨rfl, -⟩
    · exact hlt
    · exact absurd ⟨dev_of_gprIndex hk, hoff⟩ hne
  | none =>
    cases i with
    | sim0RdZero o =>
      simp only [Instr.wellFormedWith, Bool.and_eq_true, Bool.not_eq_true'] at hwf ⊢
      exact ⟨hwf.1, simGprOffset_nine hwf.2⟩
    | sim0WrNop o v =>
      simp only [Instr.wellFormedWith, Bool.not_eq_true'] at hwf ⊢
      exact simGprOffset_nine hwf
    | sim0RdGprC | sim0WrGprC => cases hk
    | _ => exact hwf

/-- Settles O8: at 0x34 both counts are evaluated; any other transaction's instruction under ten GPRs is well-formed
under nine, and is what decodes there. -/
theorem nineGprAlternativeMovesOneOffset : Obligations.NineGprAlternativeMovesOneOffset := by
  refine ⟨fun v => ⟨(decodeWith_nine_0x34 0).1, (decodeWith_nine_0x34 v).2,
    decodeWith_header .ten (.sim0RdGprC 1) 0 rfl nofun, decodeWith_header .ten (.sim0WrGprC 1 v) v rfl fun _ => rfl⟩,
    fun t ht => ?_⟩
  cases hc : checkTransaction t with
  | some e => rw [decodeWith_of_check hc, decodeWith_of_check hc]
  | none =>
    obtain ⟨i, hi, hdev⟩ := decodeWith_of_check_none (c := .ten) hc
    obtain ⟨j, hj, -⟩ := decodeWith_of_check_none (c := .nine) hc
    have hh := decodeWith_ok_header hi
    have hwf := wellFormedWith_nine (decodeWith_ok_wellFormed hi) (by rwa [hdev, hh])
    rw [hi, hj, eq_of_decodeWith_ok hj hwf (hh.trans (decodeWith_ok_header hj).symm)
      fun hw => decodeWith_ok_wdata hi ((headerW_header i).trans hw)]

/-- Settles O5: each header is the encoding of the instruction named. -/
theorem listedHeadersDecode : Obligations.ListedHeadersDecode :=
  have decode_encode (i : Instr) (h : i.wellFormed = true) : decode (encode i) = .ok i :=
    decodeOfEncodeIsIdentity Config.gprCount i h
  ⟨decode_encode .muRdTsr rfl, decode_encode (.muRdRr 3) rfl, decode_encode (.muWrTr 7 0) rfl,
    decode_encode (.sim0RdGprC 1) rfl, decode_encode (.sim0WrGprB 3 9) rfl, decode_encode .tstmrRdLo rfl,
    decode_encode (.tstmrWrNop 0xFF 5) rfl, decode_encode (.fsbRd 255) rfl⟩

/-! ## The transactions of R67 -/

/-- `RD` of an instruction's device and offset decodes to it. -/
theorem decode_rd_eq {i : Instr} {d : Dev} {off : Nat} (hwf : i.wellFormed = true) (hdev : i.dev = d)
    (hw : i.isWrite = false) (hoff : headerOff i.header = off) : decode (.rd d off) = .ok i := by
  rw [Transaction.rd, mkHeader_eq_header hdev ((headerW_header i).trans hw) hoff]
  exact decodeWith_header Config.gprCount i 0 hwf (by simp [hw])

/-- `WR` of an instruction's device, offset and word decodes to it. -/
theorem decode_wr_eq {i : Instr} {d : Dev} {off : Nat} (hwf : i.wellFormed = true) (hdev : i.dev = d)
    (hw : i.isWrite = true) (hoff : headerOff i.header = off) : decode (.wr d off i.wdata) = .ok i := by
  rw [Transaction.wr, mkHeader_eq_header hdev ((headerW_header i).trans hw) hoff]
  exact decodeWith_header Config.gprCount i i.wdata hwf fun _ => rfl

theorem decode_rd_fsb (i : BitVec 8) : decode (.rd .fsb (4 * i.toNat)) = .ok (.fsbRd i) :=
  decode_rd_eq rfl rfl rfl (headerOff_fsbRd i)

theorem decode_rd_mu_rr (n : BitVec 2) : decode (.rd .mu (0x280 + 4 * n.toNat)) = .ok (.muRdRr n) :=
  decode_rd_eq rfl rfl rfl (headerOff_muRdRr n)

theorem decode_wr_mu_tr (n : BitVec 3) (v : Word) : decode (.wr .mu (0x200 + 4 * n.toNat) v) = .ok (.muWrTr n v) :=
  decode_wr_eq (i := .muWrTr n v) rfl rfl rfl (headerOff_muWrTr n v)

theorem decode_rd_gpr {k : Nat} (hk : k < 10) : decode (.rd .sim0 (0x10 + 4 * k)) = .ok (.rdGpr k) :=
  have hidx := gprIndex_rdGpr hk
  decode_rd_eq (wellFormedWith_of_gprIndex hidx hk) (dev_of_gprIndex hidx) (isWrite_rdGpr k) (headerOff_of_gprIndex hidx)

theorem decode_wr_gpr {k : Nat} (hk : k < 10) (v : Word) : decode (.wr .sim0 (0x10 + 4 * k) v) = .ok (.wrGpr k v) := by
  have hidx := gprIndex_wrGpr hk v
  have hd := decode_wr_eq (wellFormedWith_of_gprIndex hidx hk) (dev_of_gprIndex hidx) (isWrite_wrGpr k v)
    (headerOff_of_gprIndex hidx)
  rwa [wdata_wrGpr] at hd

theorem decode_rd_tstmr_lo : decode (.rd .tstmr 0x0) = .ok .tstmrRdLo := decode_rd_eq rfl rfl rfl (by decide)

theorem decode_rd_tstmr_hi : decode (.rd .tstmr 0x4) = .ok .tstmrRdHi := decode_rd_eq rfl rfl rfl (by decide)

/-- A write of the TSTMR window is TSTMR.WR.NOP (R64, R109). -/
theorem eq_tstmrWrNop {i : Instr} (hdev : i.dev = .tstmr) (hw : headerW i.header = true) : ∃ o v, i = .tstmrWrNop o v := by
  rw [headerW_header] at hw
  cases i with
  | tstmrWrNop o v => exact ⟨o, v, rfl⟩
  | tstmrRdLo | tstmrRdHi | tstmrRdZero => cases hw
  | _ => cases hdev

end Sys2Proof

/-! PROOFS. The family 'other', instructions: what each one answers in a live state (R84 to R109), and what instructions
have in common (R44, R45, R120). -/

namespace Sys2Proof.Machine

/-! ## Each instruction in a live state -/

section
variable {s : State} (hl : s.Live)
include hl

theorem exec_fsbRd (i : BitVec 8) : exec (.fsbRd i) s = .next (s.setResp (.rdata (rfRead s.fsb (4 * i.toNat)))) :=
  onLive_of_live hl

theorem exec_muRdRr (n : BitVec 2) :
    exec (.muRdRr n) s = .next (s.setResp (.rdata (rfRead s.mu (0x280 + 4 * n.toNat)))) := onLive_of_live hl

theorem exec_muWrTr (n : BitVec 3) (v : Word) :
    exec (.muWrTr n v) s = decodeCommand (s.setMu (rfWrite s.mu (0x200 + 4 * n.toNat) v)) := onLive_of_live hl

/-- A transmit write that leaves the system-reset identifier in word 0 halts (R94). -/
theorem exec_muWrTr_halts {n : BitVec 3} {v : Word}
    (h : muCommand (rfWrite s.mu (0x200 + 4 * n.toNat) v) = cmdSystemReset) :
    exec (.muWrTr n v) s = .next (((s.setMu (rfWrite s.mu (0x200 + 4 * n.toNat) v)).setHalted true).setResp
      (.halted cmdSystemReset)) := (exec_muWrTr hl n v).trans (if_pos h)

/-- Every other one is logged (R93). -/
theorem exec_muWrTr_logs {n : BitVec 3} {v : Word}
    (h : muCommand (rfWrite s.mu (0x200 + 4 * n.toNat) v) ≠ cmdSystemReset) :
    exec (.muWrTr n v) s = .next (((s.setMu (rfWrite s.mu (0x200 + 4 * n.toNat) v)).emit
      (.muCmd (muCommand (rfWrite s.mu (0x200 + 4 * n.toNat) v)))).setResp .written) :=
  (exec_muWrTr hl n v).trans (if_neg h)

theorem exec_tstmrRdLo :
    exec .tstmrRdLo s = .next ((s.setTs ⟨s.ts.low + 1, s.ts.high⟩).setResp (.rdata s.ts.low)) := onLive_of_live hl

theorem exec_tstmrWrNop (o : BitVec 8) (v : Word) : exec (.tstmrWrNop o v) s = .next (s.setResp .written) :=
  onLive_of_live hl

/-- A read that names GPR `k` answers its cell, whichever pattern it has (R100). -/
theorem exec_of_gprIndex_read {i : Instr} {k : Nat} (hk : i.gprIndex = some k) (hw : i.isWrite = false) :
    exec i s = .next (s.setResp (.rdata (rfRead s.sim (gprOffset k)))) := by
  cases i with
  | sim0RdGprA | sim0RdGprB | sim0RdGprC =>
    cases hk
    exact onLive_of_live hl
  | sim0WrGprA | sim0WrGprB | sim0WrGprC => cases hw
  | _ => cases hk

/-- A write that names GPR `k` stores its word there, whichever pattern it has (R102). -/
theorem exec_of_gprWritten {i : Instr} {k : Nat} (hk : gprWritten i = some k) :
    exec i s = .next ((s.setSim (rfWrite s.sim (gprOffset k) i.wdata)).setResp .written) := by
  cases i with
  | sim0WrGprA | sim0WrGprB | sim0WrGprC =>
    cases hk
    exact onLive_of_live hl
  | _ => cases hk

end

/-- What an instruction writes is the GPR it names. -/
theorem gprWritten_of_gprIndex {i : Instr} {k : Nat} (hk : i.gprIndex = some k) (hw : i.isWrite = true) :
    gprWritten i = some k := by
  cases i with
  | sim0RdGprA | sim0RdGprB | sim0RdGprC => cases hw
  | sim0WrGprA | sim0WrGprB | sim0WrGprC => exact hk
  | _ => cases hk

theorem gprIndex_of_gprWritten {i : Instr} {k : Nat} (hk : gprWritten i = some k) : i.gprIndex = some k := by
  cases i with
  | sim0WrGprA | sim0WrGprB | sim0WrGprC => exact hk
  | _ => cases hk

/-- Settles O12: a read of a cell, a constant, and a dropped write. -/
theorem fsbInstructionsComplete : Obligations.FsbInstructionsComplete := fun _ hl =>
  ⟨exec_fsbRd hl, exec_fsbRdZero hl, exec_fsbWr hl⟩

/-- Settles O13: two constants, a receive word, and 0. -/
theorem muReadInstructionsComplete : Obligations.MuReadInstructionsComplete := fun _ hl =>
  ⟨exec_muRdTsr hl, exec_muRdRsr hl, exec_muRdRr hl, exec_muRdZero hl⟩

/-- Settles O14: the two outcomes of the command decode on the stored word, and a dropped write. -/
theorem muWriteInstructionsComplete : Obligations.MuWriteInstructionsComplete := fun _ hl =>
  ⟨fun _ _ => exec_muWrTr_halts hl, fun _ _ => exec_muWrTr_logs hl, exec_muWrNop hl⟩

/-- Offsets of the GPRs of the second and the third pattern (R63). -/
theorem gprOffset_four_add (x : Nat) : gprOffset (4 + x) = 0x20 + 4 * x := by rw [gprOffset]; omega

theorem gprOffset_eight_add (x : Nat) : gprOffset (8 + x) = 0x30 + 4 * x := by rw [gprOffset]; omega

/-- Settles O15: a constant, a GPR's cell for each pattern, and 0. -/
theorem sim0ReadInstructionsComplete : Obligations.Sim0ReadInstructionsComplete := by
  intro s hl
  refine ⟨exec_sim0RdStat hl, fun i => exec_of_gprIndex_read hl rfl rfl, fun i => ?_, fun i => ?_, exec_sim0RdZero hl⟩
  · rw [exec_of_gprIndex_read hl (k := 4 + i.toNat) rfl rfl, gprOffset_four_add]
  · rw [exec_of_gprIndex_read hl (k := 8 + i.toNat) rfl rfl, gprOffset_eight_add]

/-- Settles O16: a GPR's store for each pattern, and a dropped write. -/
theorem sim0WriteInstructionsComplete : Obligations.Sim0WriteInstructionsComplete := by
  intro s hl
  refine ⟨fun i v => exec_of_gprWritten hl rfl, fun i v => ?_, fun i v => ?_, exec_sim0WrNop hl⟩
  · rw [exec_of_gprWritten hl (k := 4 + i.toNat) rfl, gprOffset_four_add, Instr.wdata]
  · rw [exec_of_gprWritten hl (k := 8 + i.toNat) rfl, gprOffset_eight_add, Instr.wdata]

/-- Settles O17: the counter's read and tick, two reads of 0, and a dropped write. -/
theorem tstmrInstructionsComplete : Obligations.TstmrInstructionsComplete := fun _ hl =>
  ⟨exec_tstmrRdLo hl, exec_tstmrRdHi hl, exec_tstmrRdZero hl, exec_tstmrWrNop hl⟩

/-! ## What instructions have in common -/

/-- The word a read instruction answers. -/
def readWord (i : Instr) (s : State) : Word :=
  match i with
  | .fsbRd k => rfRead s.fsb (4 * k.toNat)
  | .muRdTsr | .muRdRsr | .sim0RdStat => 0xFFFFFFFF
  | .muRdRr n => rfRead s.mu (0x280 + 4 * n.toNat)
  | .sim0RdGprA k => rfRead s.sim (gprOffset (gprIndexA k))
  | .sim0RdGprB k => rfRead s.sim (gprOffset (gprIndexB k))
  | .sim0RdGprC k => rfRead s.sim (gprOffset (gprIndexC k))
  | .tstmrRdLo => s.ts.low
  | _ => 0

/-- A read that is not the counter's answers its word and does nothing else (R44). -/
theorem exec_read {s : State} (hl : s.Live) {i : Instr} (hw : i.isWrite = false) (hlo : i ≠ .tstmrRdLo) :
    exec i s = .next (s.setResp (.rdata (readWord i s))) := by
  cases i with
  | fsbWr | muWrTr | muWrNop | sim0WrGprA | sim0WrGprB | sim0WrGprC | sim0WrNop | tstmrWrNop => cases hw
  | tstmrRdLo => exact absurd rfl hlo
  | _ => exact onLive_of_live hl

/-- A write that is no transmit write answers a completion; what it stores depends on the instruction. -/
theorem exec_write {s : State} (hl : s.Live) {i : Instr} (hw : i.isWrite = true) (ht : isMuTransmit i = false) :
    ∃ F, exec i s = .next ((s.setSim F).setResp .written) := by
  cases i with
  | sim0WrGprA | sim0WrGprB | sim0WrGprC => exact ⟨_, exec_of_gprWritten hl rfl⟩
  | fsbWr | muWrNop | sim0WrNop | tstmrWrNop => exact ⟨s.sim, onLive_of_live hl⟩
  | muWrTr => cases ht
  | _ => cases hw

theorem decodeCommand_completes (s : State) : ∃ t, decodeCommand s = .next t := by
  unfold decodeCommand
  split
  · exact ⟨_, rfl⟩
  · exact ⟨_, rfl⟩

/-- Every instruction of a live block answers a next state (R120). -/
theorem exec_completes {s : State} (hl : s.Live) (i : Instr) : ∃ t, exec i s = .next t := by
  by_cases hlo : i = .tstmrRdLo
  · exact ⟨_, hlo ▸ exec_tstmrRdLo hl⟩
  cases hw : i.isWrite with
  | false => exact ⟨_, exec_read hl hw hlo⟩
  | true =>
    cases ht : isMuTransmit i with
    | false =>
      obtain ⟨F, hF⟩ := exec_write hl hw ht
      exact ⟨_, hF⟩
    | true =>
      cases i with
      | muWrTr n v => exact exec_muWrTr hl n v ▸ decodeCommand_completes _
      | _ => cases ht

/-- What no instruction touches. -/
theorem exec_keeps {i : Instr} {s t : State} (h : exec i s = .next t) :
    t.construction = s.construction ∧ t.pending = s.pending ∧ t.firmware = s.firmware := by
  obtain ⟨-, ⟨-, q, -, rfl⟩ | ⟨-, rfl⟩ | ⟨k, v, -, -, -, rfl⟩ | ⟨n, v, -, hd⟩⟩ := exec_cases h
  · exact ⟨rfl, rfl, rfl⟩
  · exact ⟨rfl, rfl, rfl⟩
  · exact ⟨rfl, rfl, rfl⟩
  · obtain ⟨-, rfl⟩ | ⟨-, rfl⟩ := decodeCommand_cases hd <;> exact ⟨rfl, rfl, rfl⟩

theorem constructed_of_construction {s t : State} (h : t.construction = s.construction) :
    t.constructed = s.constructed := congrArg (· == Construction.done) h

/-- Settles O36: the answer exists, and construction and trace are not an instruction's to change. -/
theorem everyInstructionCompletes : Obligations.EveryInstructionCompletes := by
  intro i s hl
  obtain ⟨t, ht⟩ := exec_completes hl i
  obtain ⟨hc, hp, -⟩ := exec_keeps ht
  exact ⟨t, ht, (constructed_of_construction hc).trans hl.2, hp⟩

/-- Settles O37: every other read answers its word and does nothing else. -/
theorem onlyTheCounterReadHasASideEffect : Obligations.OnlyTheCounterReadHasASideEffect := fun i _ hl hw =>
  ⟨fun hlo => ⟨_, exec_read hl ((headerW_header i).symm.trans hw) hlo⟩, fun hi => hi ▸ exec_tstmrRdLo hl⟩

/-- No instruction looks at the last response. -/
theorem exec_setResp (i : Instr) (s : State) (r : Response) : exec i (s.setResp r) = exec i s := by
  cases i <;> rfl

/-- A transmit write of the word that stands there already logs the identifier again (R93). -/
theorem exec_muWrTr_stored {s : State} (hl : s.Live) {n : BitVec 3} {v : Word}
    (hs : rfWrite s.mu (trOffset n.toNat) v = s.mu) (h : muCommand s.mu ≠ cmdSystemReset) :
    exec (.muWrTr n v) s = .next ((s.emit (.muCmd (muCommand s.mu))).setResp .written) := by
  refine (exec_muWrTr hl n v).trans ?_
  rw [show 0x200 + 4 * n.toNat = trOffset n.toNat from rfl, hs, s.setMu_self]
  exact if_neg h

/-- Settles O38: an instruction that only answers does not see its own answer, a GPR write stores the same word again,
and a transmit write stores the same word and finds the same identifier. -/
theorem repeatedTransactions : Obligations.RepeatedTransactions := by
  intro i s t h
  obtain ⟨hl, ⟨hi, q, -, rfl⟩ | ⟨rfl, rfl⟩ | ⟨k, v, hk, hnt, hlo, -⟩ | ⟨n, v, rfl, hd⟩⟩ := exec_cases h
  · obtain ⟨hlo, -, hnt⟩ := hi
    exact ⟨fun _ _ => (exec_setResp i s q).trans h, fun heq => absurd heq hlo, fun ht => by simp [hnt] at ht⟩
  · refine ⟨fun hne _ => absurd rfl hne, fun _ => ⟨_, _, exec_tstmrRdLo ⟨hl.1, hl.2⟩, rfl, rfl⟩, nofun⟩
  · refine ⟨fun _ _ => ?_, fun heq => absurd heq hlo, fun ht => by simp [hnt] at ht⟩
    obtain rfl := Host.Outcome.next.inj ((exec_of_gprWritten hl hk).symm.trans h)
    have hl' : (s.setSim (rfWrite s.sim (gprOffset k) i.wdata)).Live := hl
    rw [exec_setResp, exec_of_gprWritten hl' hk]
    simp only [State.setSim_sim, rfWrite_rfWrite_same]
    rfl
  · refine ⟨fun _ hnt => Bool.noConfusion hnt, nofun, fun _ hh => ?_⟩
    obtain ⟨-, rfl⟩ | ⟨hcmd, rfl⟩ := decodeCommand_cases hd
    · cases hh
    · exact exec_muWrTr_stored ⟨hh, hl.2⟩ (rfWrite_rfWrite_same _ _ _ _) hcmd

end Sys2Proof.Machine

/-! PROOFS. The family 'other', devices: from a transaction of the bus to the next state (R84 to R109), and the end of the
run at the system-reset command (R94, R122). -/

namespace Sys2Proof.Machine

/-! ## Cells by their number -/

section
variable {n : Nat} (F : RF n) {off i : Nat} (ho : off = 4 * i) (hi : i < n)
include ho

theorem rfRead_at : rfRead F off = F[i] := ho ▸ rfRead_cell F hi

theorem rfWrite_at (v : Word) : rfWrite F off v = F.set i v := by
  subst ho
  have hb : Backed n (4 * i) := ⟨by omega, by omega⟩
  rw [rfWrite_backed F v hb]
  simp

end

/-- The identifier is the field `[23:16]` of cell 128, transmit word 0 (R24, R57). -/
theorem muCommand_eq (mu : RF 256) : muCommand mu = (mu[128]).extractLsb' 16 8 := by
  rw [muCommand, cmdId_eq_extract, rfRead_at mu (off := trOffset 0) (i := 128) rfl (by decide)]

/-! ## Reads and writes of cells -/

/-- Settles O18: the read decodes to FSB.RD of the cell's number. -/
theorem fsbReadReturnsTheCell : Obligations.FsbReadReturnsTheCell := by
  intro s hl i
  have hd : decode (.rd .fsb (4 * i.val)) = .ok (.fsbRd ⟨i⟩) := decode_rd_fsb ⟨i⟩
  rw [step_issuing_bus hl hd, exec_fsbRd hl]
  exact congrArg (fun w => Host.Outcome.next (s.setResp (.rdata w))) (rfRead_cell s.fsb i.isLt)

/-- Settles O22: the first four decode to MU.RD.RR, and the rest are reads of O23. -/
theorem muReceiveWordsAreReturned : Obligations.MuReceiveWordsAreReturned := by
  intro s hl n
  by_cases hn : n.val < 4
  · have hd : decode (.rd .mu (0x280 + 4 * n.val)) = .ok (.muRdRr ⟨⟨n.val, hn⟩⟩) := decode_rd_mu_rr ⟨⟨n.val, hn⟩⟩
    rw [step_issuing_bus hl hd, exec_muRdRr hl, if_pos hn,
      rfRead_at s.mu (i := 160 + n.val) (by change 0x280 + 4 * n.val = 4 * (160 + n.val); omega)]
  · rw [if_neg hn]
    exact otherMuReadsAreZero s hl _ (by omega) (by omega) (by omega) (by omega) (by omega)

theorem exec_rdGpr {s : State} (hl : s.Live) {k : Nat} (hk : k < 10) :
    exec (.rdGpr k) s = .next (s.setResp (.rdata (s.sim[4 + k]))) := by
  rw [exec_of_gprIndex_read hl (gprIndex_rdGpr hk) (isWrite_rdGpr k),
    rfRead_at s.sim (i := 4 + k) (by rw [gprOffset]; omega)]

theorem exec_wrGpr {s : State} (hl : s.Live) {k : Nat} (hk : k < 10) (v : Word) :
    exec (.wrGpr k v) s = .next ((s.setSim (s.sim.set (4 + k) v)).setResp .written) := by
  rw [exec_of_gprWritten hl (gprWritten_of_gprIndex (gprIndex_wrGpr hk v) (isWrite_wrGpr k v)), wdata_wrGpr,
    rfWrite_at s.sim (i := 4 + k) (by rw [gprOffset]; omega)]

/-- Settles O28: the read decodes to the GPR's own instruction. -/
theorem sim0GprReadReturnsTheCell : Obligations.Sim0GprReadReturnsTheCell := fun _ hl k =>
  (step_issuing_bus hl (decode_rd_gpr k.isLt)).trans (exec_rdGpr hl k.isLt)

/-- Settles O30: the write decodes to the GPR's own instruction. -/
theorem sim0GprWriteStoresTheWord : Obligations.Sim0GprWriteStoresTheWord := fun _ hl k v =>
  (step_issuing_bus hl (decode_wr_gpr k.isLt v)).trans (exec_wrGpr hl k.isLt v)

/-! ## The counter -/

theorem step_rd_tstmr_lo {s : State} (hl : s.Live) : step (s.issuing (.bus (.rd .tstmr 0x0))) =
    .next ((s.setTs ⟨s.ts.low + 1, s.ts.high⟩).setResp (.rdata s.ts.low)) :=
  (step_issuing_bus hl decode_rd_tstmr_lo).trans (exec_tstmrRdLo hl)

/-- Settles O32: the read decodes to TSTMR.RD.LO, whose increment wraps. -/
theorem counterReadReturnsThenIncrements : Obligations.CounterReadReturnsThenIncrements := fun s hl =>
  ⟨_, step_rd_tstmr_lo hl, rfl, BitVec.toNat_add s.ts.low 1, rfl, rfl⟩

/-- Settles O34: such a write can only be TSTMR.WR.NOP. -/
theorem counterWritesAreDropped : Obligations.CounterWritesAreDropped := by
  intro s hl off v hhi ha
  have hspan : off < Dev.span .tstmr := Nat.lt_of_le_of_lt hhi (by decide)
  obtain ⟨i, hd, hdev, hw, -⟩ := decode_wr .tstmr v hspan ha
  obtain ⟨o, u, rfl⟩ := eq_tstmrWrNop hdev hw
  rw [step_issuing_bus hl hd, exec_tstmrWrNop hl]

/-! ## Transmit writes and the halt (R93, R94, R122) -/

/-- A write of transmit word `n` stores it and decodes the command. -/
theorem step_transmit {s : State} (hl : s.Live) (n : Fin 8) (v : Word) :
    step (s.issuing (.bus (.wr .mu (0x200 + 4 * n.val) v))) = decodeCommand (s.setMu (s.mu.set (128 + n.val) v)) := by
  have hd : decode (.wr .mu (0x200 + 4 * n.val) v) = .ok (.muWrTr ⟨n⟩ v) := decode_wr_mu_tr ⟨n⟩ v
  rw [step_issuing_bus hl hd, exec_muWrTr hl,
    rfWrite_at s.mu (i := 128 + n.val) (by change 0x200 + 4 * n.val = 4 * (128 + n.val); omega)]

/-- The halt, with the identifier written out as a field. -/
theorem decodeCommand_halts {s : State} (h : (s.mu[128]).extractLsb' 16 8 = 0xC7) :
    decodeCommand s = .next ((s.setHalted true).setResp (.halted 0xC7)) :=
  if_pos ((muCommand_eq s.mu).trans h)

theorem decodeCommand_logs {s : State} (h : ¬ (s.mu[128]).extractLsb' 16 8 = 0xC7) :
    decodeCommand s = .next ((s.emit (.muCmd ((s.mu[128]).extractLsb' 16 8))).setResp .written) := by
  rw [← muCommand_eq] at h ⊢
  exact if_neg h

/-- Settles O24: the store, then the two outcomes of the command decode. -/
theorem muTransmitStoresThenDecodes : Obligations.MuTransmitStoresThenDecodes := by
  intro s hl n v
  rw [step_transmit hl n v]
  split_ifs with h
  · exact decodeCommand_halts h
  · exact decodeCommand_logs h

theorem onLive_of_halted {s : State} {k : Result} (h : s.halted = true) : onLive s k = .fault .runOver :=
  unlessHalted_of_halted h

/-- Nothing has a step from a halted state: no instruction, no operation, no step (R122). -/
theorem exec_of_halted {s : State} (h : s.halted = true) (i : Instr) : exec i s = .fault .runOver := by
  cases i <;> exact onLive_of_halted h

theorem perform_of_halted {s : State} (h : s.halted = true) (r : Request) : perform r s = .fault .runOver := by
  cases r with
  | bus | save | restore => simp only [perform, busTransaction, opSave, opRestore, onLive_of_halted h]
  | guest | fetch => simp only [perform, guestAccess, fetchFromWindow, unlessHalted_of_halted h]

theorem step_of_halted {s : State} (h : s.halted = true) : step s = .fault .runOver := unlessHalted_of_halted h

/-- Settles O25: the command decode halts, and a halted state has no step. -/
theorem systemResetCommandEndsTheRun : Obligations.SystemResetCommandEndsTheRun := by
  intro s hl n v h
  have hstep := (step_transmit hl n v).trans (decodeCommand_halts (s := s.setMu (s.mu.set (128 + n.val) v)) h)
  refine ⟨_, hstep, ?_⟩
  have hh : (((s.setMu (s.mu.set (128 + n.val) v)).setHalted true).setResp (.halted 0xC7)).halted = true := rfl
  exact ⟨hh, rfl, rfl, rfl, rfl, rfl, rfl, rfl, rfl, rfl, step_of_halted hh, perform_of_halted hh, exec_of_halted hh⟩

end Sys2Proof.Machine

/-! PROOFS. The family 'other', steps: what a step runs (R17, R43), guest addresses (R37, R55), refusals before
construction and of fetches (R126, R50), CONSTRUCT and what it leaves (R112, R138). -/

namespace Sys2Proof.Machine

/-! ## What a step runs -/

/-- Settles O9: the step performs the transaction, and a live block decodes it. -/
theorem stepRunsTheDecodedTransaction : Obligations.StepRunsTheDecodedTransaction := by
  refine ⟨fun s x rest hl hp => ⟨fun i hd => ?_, fun e hd => ?_⟩, fun s l hl hp hf => ⟨fun i hd => ?_, fun e hd => ?_⟩⟩
  · exact (step_of_pending hl.ready hp).trans (busTransaction_ok (s := s.setPending rest) hl hd)
  · exact (step_of_pending hl.ready hp).trans (busTransaction_error (s := s.setPending rest) hl hd)
  · obtain ⟨t, ht⟩ := exec_completes hl i
    obtain ⟨-, -, hfw⟩ := exec_keeps ht
    refine ⟨t, ht, ?_⟩
    rw [step_of_firmware hl hp hf, busTransaction_ok hl hd, ht, afterLine_next, advance_eq, hfw]
  · rw [step_of_firmware hl hp hf, busTransaction_error hl hd, afterLine_refused]

/-- Settles O10: the word placed is the transaction that the step decodes. -/
theorem stepRunsThePlacedTableWord : Obligations.StepRunsThePlacedTableWord := by
  intro s nbits w i hl hi
  have hd : decode (Transaction.ofTableWord nbits w) = .ok i := by
    unfold decodeTableWord at hi
    split at hi
    · rename_i j hj
      rw [hj, Option.some.inj hi]
    · cases hi
  exact step_issuing_bus hl hd

/-- Settles O11: past its last line the firmware issues nothing. -/
theorem idleBlockStays : Obligations.IdleBlockStays := by
  intro s hr hp hend
  have hf : s.firmware.current = none := List.getElem?_eq_none hend
  rw [step_of_ready hr, issueOperation, hp]
  simp only [runFirmware, hf]

/-! ## Guest addresses (R37, R55) -/

theorem inWindow_iff {b : Bases} {d : Dev} {a : Nat} :
    inWindow b d a = true ↔ Bases.of b d ≤ a ∧ a < Bases.of b d + d.span := by
  rw [inWindow, Bool.and_eq_true, decide_eq_true_iff, decide_eq_true_iff]

theorem windowsApart_iff {b : Bases} {d e : Dev} : windowsApart b d e = true ↔
    Bases.of b d + d.span ≤ Bases.of b e ∨ Bases.of b e + e.span ≤ Bases.of b d := by
  rw [windowsApart, Bool.or_eq_true, decide_eq_true_iff, decide_eq_true_iff]

/-- An address apart from one of two windows that do not overlap. -/
theorem not_inWindow_of_apart {b : Bases} {d e : Dev} {a : Nat} (h : windowsApart b d e = true)
    (hd : inWindow b d a = true) : inWindow b e a = false := by
  rw [windowsApart_iff] at h
  rw [inWindow_iff] at hd
  rw [Bool.eq_false_iff, ne_eq, inWindow_iff]
  omega

theorem windowsApart_comm (b : Bases) (d e : Dev) : windowsApart b d e = windowsApart b e d := by
  rw [Bool.eq_iff_iff, windowsApart_iff, windowsApart_iff, or_comm]

/-- With admitted bases any two windows are apart. -/
theorem windowsApart_of_basesOk {b : Bases} (hb : basesOk b = true) {d e : Dev} (hne : d ≠ e) :
    windowsApart b d e = true := by
  simp only [basesOk, Bool.and_eq_true] at hb
  obtain ⟨⟨⟨⟨⟨hfm, hfs⟩, hft⟩, hms⟩, hmt⟩, hst⟩ := hb
  cases d <;> cases e <;> simp [hfm, hfs, hft, hms, hmt, hst, windowsApart_comm b .mu .fsb, windowsApart_comm b .sim0,
    windowsApart_comm b .tstmr] at hne ⊢

/-- An address lies in at most one window. -/
theorem inWindow_unique {b : Bases} (hb : basesOk b = true) {d e : Dev} {a : Nat} (hd : inWindow b d a = true)
    (he : inWindow b e a = true) : d = e := by
  by_contra hne
  simp [not_inWindow_of_apart (windowsApart_of_basesOk hb hne) hd] at he

theorem Dev.mem_all (d : Dev) : d ∈ [Dev.fsb, .mu, .sim0, .tstmr] := by cases d <;> decide

/-- The bases of this block are admitted: the stand-in is (R37). -/
theorem basesOk_systemBases : basesOk systemBases = true := by
  unfold systemBases
  split
  · assumption
  · decide

/-- An address of a window routes to its device and offset. -/
theorem route_of_window {b : Bases} (hb : basesOk b = true) {d : Dev} {off : Nat} (ho : off < d.span) :
    route b (Bases.of b d + off) = some (d, off) := by
  have hin : inWindow b d (Bases.of b d + off) = true := inWindow_iff.mpr ⟨by omega, by omega⟩
  have hsome : ([Dev.fsb, .mu, .sim0, .tstmr].find? (inWindow b · (Bases.of b d + off))).isSome = true :=
    List.find?_isSome.mpr ⟨d, Dev.mem_all d, hin⟩
  obtain ⟨e, he⟩ := Option.isSome_iff_exists.mp hsome
  have hine : inWindow b e (Bases.of b d + off) = true :=
    List.find?_some (p := fun x => inWindow b x (Bases.of b d + off)) he
  obtain rfl := inWindow_unique hb hin hine
  rw [route, he, Option.map_some, Nat.add_sub_cancel_left]

/-- Settles O53: no address has two windows, so the first window found is the only one. -/
theorem guestAddressesRouteToTheirWindow : Obligations.GuestAddressesRouteToTheirWindow := by
  refine ⟨basesOk_systemBases, fun b hb => ⟨fun d off ho => route_of_window hb ho, fun a => ?_⟩⟩
  rw [route, Option.map_eq_none_iff, List.find?_eq_none]
  simp only [inWindow_iff]
  exact ⟨fun h d => h d (Dev.mem_all d), fun h d _ => h d⟩

/-- Settles O54: the bus routes the address back to device and offset, or to no device. -/
theorem guestAccessIsItsTransaction : Obligations.GuestAccessIsItsTransaction := by
  refine fun s hr => ⟨fun d off v ho => ?_, fun a ha => ?_⟩
  · have hroute := route_of_window basesOk_systemBases ho
    simp only [step_issuing _ hr, perform, guestAccess, unlessHalted_of_running hr.1, hroute]
    exact ⟨rfl, rfl⟩
  · simp only [step_issuing _ hr, perform, guestAccess, unlessHalted_of_running hr.1, ha]

/-! ## Refusals (R50, R126) -/

/-- Settles O42: each of them is an operation of a device, and there is none yet. -/
theorem nothingBeforeConstruction : Obligations.NothingBeforeConstruction := by
  intro s hh hc
  have hbus (x : Transaction) : perform (.bus x) s = .refused .notConstructed := onLive_of_unbuilt hh hc
  have hsave (d : Dev) : perform (.save d) s = .refused .notConstructed := onLive_of_unbuilt hh hc
  have hrestore (d : Dev) (b : Blob) : perform (.restore d b) s = .refused .notConstructed := onLive_of_unbuilt hh hc
  refine ⟨hbus, hsave, hrestore, fun i => ?_, fun hl => ?_⟩
  · cases i <;> exact onLive_of_unbuilt hh hc
  · have hr : s.Ready := ⟨hh, hl⟩
    exact ⟨fun x => (step_issuing _ hr).trans (hbus x), fun d => (step_issuing _ hr).trans (hsave d),
      fun d b => (step_issuing _ hr).trans (hrestore d b)⟩

/-- Settles O43: a fetch is refused as it is, and a guest fetch in a window is routed to one. -/
theorem fetchFromAWindowIsRefused : Obligations.FetchFromAWindowIsRefused := by
  intro s hh d off
  have hfetch : fetchFromWindow s = .refused .fetchFromDevice := unlessHalted_of_running hh
  refine ⟨hfetch, fun hl => ⟨(step_issuing _ ⟨hh, hl⟩).trans hfetch, fun size v ho => ?_⟩⟩
  rw [step_issuing _ ⟨hh, hl⟩]
  simp only [perform, guestAccess, unlessHalted_of_running hh, route_of_window basesOk_systemBases ho]
  exact hfetch

/-! ## CONSTRUCT (R112, R138, R140) -/

/-- CONSTRUCT with 512 words and an admitted table completes (R112). -/
theorem opConstruct_of_ok {l : Launch} {s : State} (hf : l.fuse.length = fuseWords) (hm : fsbMapOk l.map = true) :
    opConstruct l s = .next (built l s) := by
  simp only [opConstruct, hf, hm, ne_eq, not_true_eq_false, if_false, Bool.true_eq_false]

/-- Settles O44: the launch inputs of reset pass both checks. -/
theorem constructReachesTheResetState : Obligations.ConstructReachesTheResetState := by
  unfold Obligations.ConstructReachesTheResetState
  rw [step_of_launch rfl rfl, opConstruct_of_ok (by rw [bootFuse_length]) (by rw [bootFsbMap_ok])]
  simp only [built, State.reset]
  rfl

/-- Only CONSTRUCT constructs a block, and nothing takes it back (R140). -/
theorem construction_of_step {s t : State} (h : step s = .next t) :
    (∃ l, s.launch = some l ∧ t = built l s) ∨ t.construction = s.construction := by
  obtain ⟨-, ⟨l, hl, -, -, rfl⟩ | ⟨-, -, rfl⟩ | ⟨r, rest, -, hr⟩ | ⟨l, u, -, -, hu, rfl⟩⟩ := step_cases h
  · exact .inl ⟨l, hl, rfl⟩
  · exact .inr rfl
  · exact .inr (perform_keeps hr).1
  · exact .inr (perform_keeps hu).1

/-- Settles O45: the two checks decide a step with CONSTRUCT called for, and no other step touches the construction. -/
theorem constructCompletesOrRefuses : Obligations.ConstructCompletesOrRefuses := by
  refine ⟨fun s l hh hl => ⟨fun hf hm => ?_, fun hf => ?_, fun hf hm => ?_⟩, fun s t hc h => ?_, fun s t hc h ht => ?_⟩
  · exact ⟨built l s, (step_of_launch hh hl).trans (opConstruct_of_ok hf hm), rfl, rfRead_rfInit, rfRead_rfInit, rfl,
      rfl, rfl, rfl, rfl, rfl⟩
  · exact (step_of_launch hh hl).trans (if_pos hf)
  · exact (step_of_launch hh hl).trans ((if_neg (not_not.mpr hf)).trans (if_pos hm))
  · obtain ⟨l, hl, -⟩ | hk := construction_of_step h
    · cases (s.launch_of_constructed hc).symm.trans hl
    · have ht := (constructed_of_construction hk).trans hc
      exact ⟨ht, t.launch_of_constructed ht⟩
  · obtain ⟨l, hl, -⟩ | hk := construction_of_step h
    · exact ⟨l, hl⟩
    · cases ht.symm.trans ((constructed_of_construction hk).trans hc)

/-- Settles O48: the zeros are those of RF_INIT. -/
theorem resetValues : Obligations.ResetValues := ⟨rfRead_rfInit, rfRead_rfInit, rfl, rfl, rfl, rfl⟩

end Sys2Proof.Machine

/-! PROOFS. The family 'other', FSB.LOAD and snapshots: what the copy table puts where (R81 to R83), what SAVE lists and
RESTORE assigns (R115 to R117). -/

namespace Sys2Proof.Machine

/-! ## FSB.LOAD (R81 to R83) -/

/-- Cell `j` is in the destination range of an entry (R81). -/
abbrev FsbEntry.covers (e : FsbEntry) (j : Nat) : Prop := e.dst ≤ j ∧ j < e.dst + e.len

/-- The copy of a table over any file (R81). -/
def copyTable (fuse : List Word) (m : List FsbEntry) (F : RF 256) : RF 256 :=
  m.foldl (fun F e => copyWords fuse e e.len F) F

theorem fsbLoad_eq_copyTable (fuse : List Word) (m : List FsbEntry) : fsbLoad fuse m = copyTable fuse m (rfInit 256) := rfl

theorem copyTable_cons (fuse : List Word) (e : FsbEntry) (m : List FsbEntry) (F : RF 256) :
    copyTable fuse (e :: m) F = copyTable fuse m (copyWords fuse e e.len F) := rfl

/-- A cell outside every destination range keeps its word. -/
theorem rfRead_copyTable_uncovered (fuse : List Word) {m : List FsbEntry} (hr : ∀ e ∈ m, e.dst + e.len ≤ 256)
    (F : RF 256) {j : Nat} (hj : ∀ e ∈ m, ¬ FsbEntry.covers e j) :
    rfRead (copyTable fuse m F) (4 * j) = rfRead F (4 * j) := by
  induction m generalizing F with
  | nil => rfl
  | cons e m ih =>
    rw [List.forall_mem_cons] at hr hj
    rw [copyTable_cons, ih hr.2 _ hj.2, rfRead_copyEntry fuse e hr.1, if_neg hj.1]

/-- A cell in the range of one entry of a table with disjoint ranges holds that entry's fuse word: later entries do not
reach it. -/
theorem rfRead_copyTable_covered (fuse : List Word) {m : List FsbEntry} (hr : ∀ e ∈ m, e.dst + e.len ≤ 256)
    (hd : destinationsDisjoint m = true) (F : RF 256) {e : FsbEntry} (he : e ∈ m) {k : Nat} (hk : k < e.len) :
    rfRead (copyTable fuse m F) (4 * (e.dst + k)) = fuse.getD (e.src + k) 0 := by
  induction m generalizing F with
  | nil => cases he
  | cons f m ih =>
    simp only [destinationsDisjoint, Bool.and_eq_true, List.all_eq_true] at hd
    obtain ⟨hapart, hd⟩ := hd
    rw [List.forall_mem_cons] at hr
    rw [copyTable_cons]
    rcases List.mem_cons.mp he with rfl | hmem
    · have hout : ∀ g ∈ m, ¬ FsbEntry.covers g (e.dst + k) := fun g hg => by
        have := hapart g hg
        simp only [entriesDisjoint, Bool.or_eq_true, decide_eq_true_iff] at this
        omega
      rw [rfRead_copyTable_uncovered fuse hr.2 _ hout, rfRead_copyEntry fuse e hr.1, if_pos (by omega),
        Nat.add_sub_cancel_left]
    · exact ih hr.2 hd _ hmem

/-- The parts of R82 that an admitted table meets: ranges, disjointness, and the pinned mappings. -/
theorem fsbMapOk_parts {m : List FsbEntry} (h : fsbMapOk m = true) :
    (∀ e ∈ m, e.dst + e.len ≤ 256) ∧ destinationsDisjoint m = true ∧ pinnedMappings m = true := by
  simp only [fsbMapOk, Bool.and_eq_true, List.all_eq_true] at h
  obtain ⟨⟨⟨-, hr⟩, hd⟩, hp⟩ := h
  exact ⟨fun e he => entryInRange_dst (hr e he), hd, hp⟩

/-- Settles O46: entry by entry, with disjoint ranges. -/
theorem fsbLoadCopiesTheTable : Obligations.FsbLoadCopiesTheTable := by
  intro fuse m _ hm
  obtain ⟨hr, hd, -⟩ := fsbMapOk_parts hm
  rw [fsbLoad_eq_copyTable]
  refine ⟨fun e he k hk => rfRead_copyTable_covered fuse hr hd _ he hk, fun j hj => ?_⟩
  rw [rfRead_copyTable_uncovered fuse hr _ hj, rfRead_rfInit]

/-- The mappings that R83 pins, in a table that has them. -/
theorem pinnedMappings_cases {m : List FsbEntry} (h : pinnedMappings m = true) : ⟨24, 8, 0⟩ ∈ m ∧
    ∀ k, k < 8 → ∃ e ∈ m, ∃ j, j < e.len ∧ e.src + j = 296 + k ∧ e.dst + j = 96 + k := by
  simp only [pinnedMappings, Bool.and_eq_true, List.contains_iff_mem, List.all_eq_true, List.any_eq_true, List.mem_range,
    copies, decide_eq_true_iff, beq_iff_eq] at h
  refine ⟨h.1, fun k hk => ?_⟩
  obtain ⟨e, he, ⟨hlo, hhi⟩, hsum⟩ := h.2 k hk
  exact ⟨e, he, 296 + k - e.src, by omega, by omega, by omega⟩

/-- A fuse word that the boot table copies stands in its cell at reset. -/
theorem reset_fsb_of_entry {e : FsbEntry} (he : e ∈ bootFsbMap) {j p c : Nat} (hj : j < e.len) (hp : e.src + j = p)
    (hc : e.dst + j = c) (hlt : p < fuseWords) : rfRead State.reset.fsb (4 * c) = Config.fuseWord p := by
  subst hp hc
  rw [← bootFuse_getD hlt]
  exact (fsbLoadCopiesTheTable bootFuse bootFsbMap bootFuse_length bootFsbMap_ok).1 e he j hj

/-- Settles O47: the boot table is admitted, so it has the pinned mappings, and FSB.LOAD carries them out. -/
theorem pinnedFuseWordsAtReset : Obligations.PinnedFuseWordsAtReset := by
  intro k hk
  obtain ⟨hfirst, hlast⟩ := pinnedMappings_cases (fsbMapOk_parts bootFsbMap_ok).2.2
  refine ⟨reset_fsb_of_entry hfirst (j := k) hk rfl (Nat.zero_add k) (by rw [fuseWords]; omega), ?_⟩
  obtain ⟨e, he, j, hj, hp, hc⟩ := hlast k hk
  rw [show 0x180 + 4 * k = 4 * (96 + k) by omega]
  exact reset_fsb_of_entry he hj hp hc (by rw [fuseWords]; omega)

/-! ## Register files in index order (R80) -/

/-- Saving the first `m` cells lists them. -/
theorem rfSave_range {n : Nat} (F : RF n) {m : Nat} (hm : m ≤ n) : rfSave F (List.range m) = F.toList.take m := by
  refine List.ext_getElem (by simp [rfSave, hm]) fun i hi _ => ?_
  have him : i < m := by simpa [rfSave] using hi
  simp [rfSave, rfRead_cell F (Nat.lt_of_lt_of_le him hm)]

/-- Restoring the first `m` cells puts word `j` in cell `j` and leaves the others. -/
theorem rfRead_rfRestore_range {n : Nat} (F : RF n) {m : Nat} (hm : m ≤ n) {ws : List Word} (hl : ws.length = m)
    (j : Nat) :
    rfRead (rfRestore F (List.range m) ws) (4 * j) = if j < m then ws.getD j 0 else rfRead F (4 * j) := by
  split_ifs with hj
  · have hlen : ws.length = (List.range m).length := by rw [hl, List.length_range]
    have hget := rfRead_rfRestore_get F (List.range m) ws List.nodup_range
      (fun i hi => Nat.lt_of_lt_of_le (List.mem_range.mp hi) hm) hlen j (by rwa [List.length_range])
    rw [List.getElem_range] at hget
    rw [hget, List.getD_eq_getElem _ _ (hl ▸ hj)]
  · exact rfRead_rfRestore_other F _ ws fun i hi => by
      have := List.mem_range.mp hi
      omega

/-! ## SAVE and RESTORE (R115, R116) -/

/-- A step that saves a device answers its tag and fields. -/
theorem step_save {s : State} (hl : s.Live) (d : Dev) :
    step (s.issuing (.save d)) = .next (s.setResp (.saved ⟨Config.snapVersion d, saveFields d s⟩)) :=
  (step_issuing _ hl.ready).trans (onLive_of_live hl)

/-- Settles O49: the declared order is the index order. -/
theorem saveListsTheFields : Obligations.SaveListsTheFields := by
  intro s hl
  simp only [step_save hl, saveFields, muOrder_eq_range]
  refine ⟨?_, ?_, ?_, trivial⟩
  · rw [rfSave_range s.fsb (Nat.le_refl 256), List.take_of_length_le (by simp)]
  · rw [rfSave_range s.mu (by decide)]
  · rw [rfSave_range s.sim (Nat.le_refl 44), List.take_of_length_le (by simp)]

/-- A step that restores a device from a blob with its tag and word count assigns the fields. -/
theorem step_restore {s : State} (hl : s.Live) {d : Dev} {b : Blob} (ht : b.tag = Config.snapVersion d)
    (hn : b.fields.length = snapWords d) :
    step (s.issuing (.restore d b)) = .next ((assignFields d b.fields s).setResp .restored) :=
  (step_issuing _ hl.ready).trans ((onLive_of_live hl).trans (if_neg (by simp [ht, hn])))

/-- With any other blob it is refused. -/
theorem step_restore_refused {s : State} (hl : s.Live) {d : Dev} {b : Blob}
    (h : b.tag ≠ Config.snapVersion d ∨ b.fields.length ≠ snapWords d) :
    step (s.issuing (.restore d b)) = .refused .badSnapshot :=
  (step_issuing _ hl.ready).trans ((onLive_of_live hl).trans (if_pos h))

section
variable {d : Dev} {ws : List Word} (hn : ws.length = snapWords d) (s : State)
include hn

theorem rfRead_assignFields_fsb (j : Nat) : rfRead (assignFields d ws s).fsb (4 * j) =
    if d = .fsb ∧ j < 256 then ws.getD j 0 else rfRead s.fsb (4 * j) := by
  cases d with
  | fsb =>
    simp only [true_and]
    exact rfRead_rfRestore_range s.fsb (Nat.le_refl 256) hn j
  | mu | sim0 | tstmr => rfl

theorem rfRead_assignFields_mu (j : Nat) : rfRead (assignFields d ws s).mu (4 * j) =
    if d = .mu ∧ j < 191 then ws.getD j 0 else rfRead s.mu (4 * j) := by
  cases d with
  | mu =>
    simp only [true_and, assignFields, muOrder_eq_range]
    exact rfRead_rfRestore_range s.mu (by decide) hn j
  | fsb | sim0 | tstmr => rfl

theorem rfRead_assignFields_sim (j : Nat) : rfRead (assignFields d ws s).sim (4 * j) =
    if d = .sim0 ∧ j < 44 then ws.getD j 0 else rfRead s.sim (4 * j) := by
  cases d with
  | sim0 =>
    simp only [true_and]
    exact rfRead_rfRestore_range s.sim (Nat.le_refl 44) hn j
  | fsb | mu | tstmr => rfl

end

theorem assignFields_ts (d : Dev) (ws : List Word) (s : State) :
    (assignFields d ws s).ts = if d = .tstmr then ⟨ws.getD 0 0, ws.getD 1 0⟩ else s.ts := by cases d <;> rfl

/-- Settles O50: each device's cells are restored in index order, and the other devices' are not touched. -/
theorem restoreAssignsTheFields : Obligations.RestoreAssignsTheFields := by
  refine fun s d b hl => ⟨step_restore_refused hl, fun ht hn => ⟨_, step_restore hl ht hn, rfl, ?_⟩⟩
  simp only [State.setResp_halted, State.setResp_log, State.setResp_constructed, State.setResp_pending,
    State.setResp_firmware, State.setResp_fsb, State.setResp_mu, State.setResp_sim, State.setResp_ts,
    assignFields_halted, assignFields_log, assignFields_constructed, assignFields_pending, assignFields_firmware]
  exact ⟨hl.1, trivial, trivial, trivial, trivial, rfRead_assignFields_fsb hn s, rfRead_assignFields_mu hn s,
    rfRead_assignFields_sim hn s, assignFields_ts d b.fields s⟩

/-- A blob that SAVE made is taken back by RESTORE. -/
theorem step_restore_saveFields {u : State} (hu : u.Live) (d : Dev) (s : State) :
    step (u.issuing (.restore d ⟨Config.snapVersion d, saveFields d s⟩)) =
      .next ((assignFields d (saveFields d s) u).setResp .restored) :=
  step_restore hu rfl (saveFields_length d s)

/-- After a RESTORE of what SAVE listed, the reads of the device answer what they answered where it was saved (R117). -/
theorem readWord_assignFields_saveFields (s u : State) {i : Instr} (hw : i.isWrite = false) :
    readWord i (assignFields i.dev (saveFields i.dev s) u) = readWord i s := by
  have hgpr {k : Nat} (hk : k < 40) : rfRead (assignFields .sim0 (saveFields .sim0 s) u).sim (gprOffset k) =
      rfRead s.sim (gprOffset k) := by
    rw [show gprOffset k = 4 * (4 + k) by rw [gprOffset]; omega]
    simp only [assignFields, saveFields, State.setSim_sim]
    exact rfRead_rfRestore_rfSave u.sim s.sim _ (fun _ => List.mem_range.mp) (List.mem_range.mpr (by omega))
  cases i with
  | fsbRd k =>
    simp only [readWord, Instr.dev, assignFields, saveFields, State.setFsb_fsb]
    exact rfRead_rfRestore_rfSave u.fsb s.fsb _ (fun _ => List.mem_range.mp) (List.mem_range.mpr k.isLt)
  | muRdRr n =>
    have hn := n.isLt
    simp only [readWord, Instr.dev, assignFields, saveFields, muOrder_eq_range, State.setMu_mu]
    rw [show 0x280 + 4 * n.toNat = 4 * (160 + n.toNat) by omega]
    exact rfRead_rfRestore_rfSave u.mu s.mu _ (fun j hj => by have := List.mem_range.mp hj; omega)
      (List.mem_range.mpr (by omega))
  | sim0RdGprA k =>
    have hk := k.isLt
    exact hgpr (by rw [gprIndexA]; omega)
  | sim0RdGprB k =>
    have hk := k.isLt
    exact hgpr (by rw [gprIndexB]; omega)
  | sim0RdGprC k =>
    have hk := k.isLt
    exact hgpr (by rw [gprIndexC]; omega)
  | fsbWr | muWrTr | muWrNop | sim0WrGprA | sim0WrGprB | sim0WrGprC | sim0WrNop | tstmrWrNop => cases hw
  | _ => rfl

/-- Every read answers its word, the counter's too. -/
theorem exec_read_resp {s : State} (hl : s.Live) {i : Instr} (hw : i.isWrite = false) :
    ∃ t, exec i s = .next t ∧ t.resp = .rdata (readWord i s) := by
  by_cases hlo : i = .tstmrRdLo
  · exact hlo ▸ ⟨_, exec_tstmrRdLo hl, rfl⟩
  · exact ⟨_, exec_read hl hw hlo, rfl⟩

/-- Settles O51: assigning the saved fields gives the device back, and so its reads. -/
theorem restoreOfASaveRoundTrips : Obligations.RestoreOfASaveRoundTrips := by
  intro s u d hl hu
  refine ⟨_, step_save hl d, ?_, _, step_restore_saveFields hu d s, ?_⟩
  · rw [step_restore_saveFields hl, assignFields_saveFields]
  · rintro i rfl hw
    rw [headerW_header] at hw
    have hut : (assignFields i.dev (saveFields i.dev s) u).Live :=
      ⟨(assignFields_halted _ _ u).trans hu.1, (assignFields_constructed _ _ u).trans hu.2⟩
    obtain ⟨s', hs, hsr⟩ := exec_read_resp hl hw
    obtain ⟨t', ht, htr⟩ := exec_read_resp hut hw
    rw [readWord_assignFields_saveFields s u hw] at htr
    exact ⟨readWord i s, s', t', hs, (exec_setResp i _ _).trans ht, hsr, htr⟩

/-- Settles O52: the identifier of the mailbox is that of its word 128, which a write of another word leaves. -/
theorem restoredSystemResetArmsTheHalt : Obligations.RestoredSystemResetArmsTheHalt := by
  intro s b hl ht hn hid
  have hlive : ((assignFields .mu b.fields s).setResp .restored).Live := hl
  have hword : rfRead (assignFields .mu b.fields s).mu (4 * 128) = b.fields.getD 128 0 := by
    rw [rfRead_assignFields_mu hn, if_pos (by decide)]
  refine ⟨_, step_restore hl ht hn, hl.1, rfl, fun n v hne => ⟨_, (step_transmit hlive n v).trans
    (decodeCommand_halts (s := State.setMu _ _) ?_), rfl, rfl, ?_⟩⟩
  · rw [State.setMu_mu, Vector.getElem_set_ne _ _ (by omega), State.setResp_mu, ← rfRead_cell _ (by decide), hword, hid]
  · rw [rfRead_at _ (i := 128 + n.val) (by omega) (by omega)]
    exact Vector.getElem_set_self _

end Sys2Proof.Machine

/-! PROOFS. The family 'other', what every step keeps (R35, R31) and the invariant of the block. -/

namespace Sys2Proof.Machine

/-! ## Parts of the state and the operations that change them (R35) -/

/-- A part of the state that the bookkeeping of a step does not touch: response, trace and firmware are not in it. -/
structure IsPart {α : Type} (f : State → α) : Prop where
  resp : ∀ s r, f (State.setResp s r) = f s
  pending : ∀ s rs, f (State.setPending s rs) = f s
  firmware : ∀ s fw, f (State.setFirmware s fw) = f s

/-- An operation keeps a part that its instruction, or the fields it restores, do not change. -/
theorem perform_keeps_part {α : Type} {f : State → α} (hf : IsPart f) {r : Request} {s t : State}
    (h : perform r s = .next t) (hexec : ∀ i, instrOf r = some i → exec i s = .next t → f t = f s)
    (hrestore : ∀ d b, r = .restore d b → f (assignFields d b.fields s) = f s) : f t = f s := by
  obtain ⟨-, ⟨-, -, q, -, rfl⟩ | ⟨-, -, i, hi, he⟩ | ⟨-, d, b, hr, -, -, rfl⟩⟩ := perform_cases h
  · exact hf.resp s q
  · exact hexec i hi he
  · exact (hf.resp _ _).trans (hrestore d b hr)

/-- So does a step whose next operation it is. -/
theorem step_keeps_part {α : Type} {f : State → α} (hf : IsPart f) {s t : State} {r : Request}
    (hc : s.constructed = true) (hn : s.nextRequest = some r) (h : step s = .next t)
    (hexec : ∀ i u v, instrOf r = some i → exec i u = .next v → f v = f u)
    (hrestore : ∀ d b u, r = .restore d b → f (assignFields d b.fields u) = f u) : f t = f s := by
  obtain ⟨u, hu, hd⟩ := step_of_nextRequest hc hn h
  have hfu : f u = f s := (perform_keeps_part hf hu (fun i hi he => hexec i _ _ hi he)
    fun d b hr => hrestore d b _ hr).trans (hf.pending s _)
  obtain ⟨-, rfl⟩ | ⟨l, -, -, -, rfl⟩ := hd
  · exact hfu
  · exact (hf.firmware u _).trans hfu

theorem isPart_mu : IsPart State.mu := ⟨fun _ _ => rfl, fun _ _ => rfl, fun _ _ => rfl⟩
theorem isPart_sim : IsPart State.sim := ⟨fun _ _ => rfl, fun _ _ => rfl, fun _ _ => rfl⟩
theorem isPart_ts : IsPart State.ts := ⟨fun _ _ => rfl, fun _ _ => rfl, fun _ _ => rfl⟩
theorem isPart_log : IsPart State.log := ⟨fun _ _ => rfl, fun _ _ => rfl, fun _ _ => rfl⟩
theorem isPart_halted : IsPart State.halted := ⟨fun _ _ => rfl, fun _ _ => rfl, fun _ _ => rfl⟩

/-- A function of a part is a part. -/
theorem IsPart.comp {α β : Type} {f : State → α} (hf : IsPart f) (g : α → β) : IsPart (fun s => g (f s)) :=
  ⟨fun s r => congrArg g (hf.resp s r), fun s rs => congrArg g (hf.pending s rs),
    fun s fw => congrArg g (hf.firmware s fw)⟩

/-! ## What an instruction changes -/

/-- An instruction that is no transmit write leaves mailbox, log and halt. -/
theorem exec_keeps_mu {i : Instr} {s t : State} (hi : isMuTransmit i = false) (h : exec i s = .next t) :
    t.mu = s.mu ∧ t.log = s.log ∧ t.halted = s.halted := by
  obtain ⟨-, ⟨-, q, -, rfl⟩ | ⟨-, rfl⟩ | ⟨k, v, -, -, -, rfl⟩ | ⟨n, v, rfl, -⟩⟩ := exec_cases h
  · exact ⟨rfl, rfl, rfl⟩
  · exact ⟨rfl, rfl, rfl⟩
  · exact ⟨rfl, rfl, rfl⟩
  · cases hi

/-- An instruction that writes no GPR leaves SIM0. -/
theorem exec_keeps_sim {i : Instr} {s t : State} (hi : gprWritten i = none) (h : exec i s = .next t) :
    t.sim = s.sim := by
  obtain ⟨-, ⟨-, q, -, rfl⟩ | ⟨-, rfl⟩ | ⟨k, v, hk, -, -, -⟩ | ⟨n, v, -, hd⟩⟩ := exec_cases h
  · rfl
  · rfl
  · cases hi.symm.trans hk
  · obtain ⟨-, rfl⟩ | ⟨-, rfl⟩ := decodeCommand_cases hd <;> rfl

/-- An instruction that is not the counter read leaves the counter. -/
theorem exec_keeps_ts {i : Instr} {s t : State} (hi : i ≠ .tstmrRdLo) (h : exec i s = .next t) : t.ts = s.ts := by
  obtain ⟨-, ⟨-, q, -, rfl⟩ | ⟨hlo, -⟩ | ⟨k, v, -, -, -, rfl⟩ | ⟨n, v, -, hd⟩⟩ := exec_cases h
  · rfl
  · exact absurd hlo hi
  · rfl
  · obtain ⟨-, rfl⟩ | ⟨-, rfl⟩ := decodeCommand_cases hd <;> rfl

/-- A transmit write changes one of its words 0 to 7, and then halts on the system-reset identifier or logs another. -/
theorem exec_transmit_cases {i : Instr} {s t : State} (hi : isMuTransmit i = true) (h : exec i s = .next t) :
    (∃ n v, n < 8 ∧ t.mu = rfWrite s.mu (trOffset n) v) ∧
    ((t.halted = true ∧ muCommand t.mu = cmdSystemReset ∧ t.log = s.log) ∨
     (t.halted = false ∧ muCommand t.mu ≠ cmdSystemReset ∧ t.log = s.log ++ [.muCmd (muCommand t.mu)])) := by
  cases i with
  | muWrTr n v =>
    have hl := (exec_cases h).1
    rw [exec_muWrTr hl] at h
    obtain ⟨hcmd, rfl⟩ | ⟨hcmd, rfl⟩ := decodeCommand_cases h
    · exact ⟨⟨n.toNat, v, n.isLt, rfl⟩, .inl ⟨rfl, hcmd, rfl⟩⟩
    · exact ⟨⟨n.toNat, v, n.isLt, rfl⟩, .inr ⟨hl.1, hcmd, rfl⟩⟩
  | _ => cases hi

/-- No instruction changes a mailbox cell outside transmit words 0 to 7. -/
theorem exec_keeps_muCell {i : Instr} {s t : State} (h : exec i s = .next t) {j : Nat} (hj : ¬ (128 ≤ j ∧ j < 136)) :
    rfRead t.mu (4 * j) = rfRead s.mu (4 * j) := by
  cases hi : isMuTransmit i with
  | false => rw [(exec_keeps_mu hi h).1]
  | true =>
    obtain ⟨⟨n, v, hn, hmu⟩, -⟩ := exec_transmit_cases hi h
    rw [hmu, rfRead_rfWrite_other _ _ (by rw [trOffset]; omega)]

/-! ## What a step changes -/

theorem isTransmit_of_instrOf {r : Request} {i : Instr} (hi : instrOf r = some i) : isTransmit r = isMuTransmit i := by
  rw [isTransmit, hi, Option.any_some]

theorem isGprWrite_of_instrOf {k : Nat} {r : Request} {i : Instr} (hi : instrOf r = some i) :
    isGprWrite k r = (gprWritten i == some k) := by rw [isGprWrite, hi, Option.bind_some]

theorem isCounterRead_of_instrOf {r : Request} {i : Instr} (hi : instrOf r = some i) :
    isCounterRead r = (i == .tstmrRdLo) := by
  rw [isCounterRead, hi]
  rfl

/-- Assigning the fields of a device leaves the others. -/
theorem assignFields_mu {d : Dev} (hd : d ≠ .mu) (ws : List Word) (s : State) : (assignFields d ws s).mu = s.mu := by
  cases d with
  | mu => exact absurd rfl hd
  | fsb | sim0 | tstmr => rfl

theorem assignFields_sim {d : Dev} (hd : d ≠ .sim0) (ws : List Word) (s : State) :
    (assignFields d ws s).sim = s.sim := by
  cases d with
  | sim0 => exact absurd rfl hd
  | fsb | mu | tstmr => rfl

theorem ne_of_isRestoreOf {d e : Dev} {b : Blob} (h : isRestoreOf d (.restore e b) = false) : e ≠ d := by
  simpa [isRestoreOf] using h

/-- A GPR that an instruction writes is one of ten. -/
theorem gprWritten_lt {i : Instr} {k : Nat} (hk : gprWritten i = some k) : k < 10 := by
  rcases gprIndex_cases (gprIndex_of_gprWritten hk) with hlt | ⟨rfl, -⟩ <;> omega

/-- An instruction that an operation runs is run by a step that performs it. -/
theorem perform_of_instrOf {r : Request} {i : Instr} {s t : State} (hi : instrOf r = some i)
    (h : perform r s = .next t) : exec i s = .next t := by
  obtain ⟨-, ⟨hn, -⟩ | ⟨-, -, j, hj, he⟩ | ⟨-, d, b, rfl, -⟩⟩ := perform_cases h
  · cases hn.symm.trans hi
  · rwa [Option.some.inj (hi.symm.trans hj)]
  · cases hi

section
variable {s t : State} {r : Request} (hc : s.constructed = true) (hn : s.nextRequest = some r) (h : step s = .next t)
include hc hn h

/-- A step that performs no transmit write leaves log and halt, and the mailbox too if it does not restore it. -/
theorem step_keeps_log (hr : isTransmit r = false) : t.log = s.log :=
  step_keeps_part isPart_log hc hn h
    (fun _ _ _ hi he => (exec_keeps_mu ((isTransmit_of_instrOf hi).symm.trans hr) he).2.1)
    fun d b u _ => assignFields_log d b.fields u

theorem step_keeps_halted (hr : isTransmit r = false) : t.halted = s.halted :=
  step_keeps_part isPart_halted hc hn h
    (fun _ _ _ hi he => (exec_keeps_mu ((isTransmit_of_instrOf hi).symm.trans hr) he).2.2)
    fun d b u _ => assignFields_halted d b.fields u

theorem step_keeps_mu (hr : isTransmit r = false) (hm : isRestoreOf .mu r = false) : t.mu = s.mu :=
  step_keeps_part isPart_mu hc hn h
    (fun _ _ _ hi he => (exec_keeps_mu ((isTransmit_of_instrOf hi).symm.trans hr) he).1)
    fun _ b u hrb => assignFields_mu (ne_of_isRestoreOf (hrb ▸ hm)) b.fields u

/-- A step that does not restore the mailbox leaves all but transmit words 0 to 7. -/
theorem step_keeps_muCell (hm : isRestoreOf .mu r = false) {j : Nat} (hj : ¬ (128 ≤ j ∧ j < 136)) :
    rfRead t.mu (4 * j) = rfRead s.mu (4 * j) :=
  step_keeps_part (isPart_mu.comp (rfRead · (4 * j))) hc hn h (fun _ _ _ _ he => exec_keeps_muCell he hj)
    fun _ b u hrb => congrArg (rfRead · (4 * j)) (assignFields_mu (ne_of_isRestoreOf (hrb ▸ hm)) b.fields u)

/-- A step that writes no GPR and does not restore SIM0 leaves it. -/
theorem step_keeps_sim (hr : ∀ k, k < 10 → isGprWrite k r = false) (hm : isRestoreOf .sim0 r = false) :
    t.sim = s.sim := by
  refine step_keeps_part isPart_sim hc hn h (fun i u v hi he => exec_keeps_sim ?_ he)
    fun _ b u hrb => assignFields_sim (ne_of_isRestoreOf (hrb ▸ hm)) b.fields u
  cases hk : gprWritten i with
  | none => rfl
  | some k => simpa [isGprWrite_of_instrOf hi, hk] using hr k (gprWritten_lt hk)

/-- A step that is no counter read and does not restore the counter leaves it. -/
theorem step_keeps_ts (hr : isCounterRead r = false) (hm : isRestoreOf .tstmr r = false) : t.ts = s.ts := by
  refine step_keeps_part isPart_ts hc hn h (fun i u v hi he => exec_keeps_ts ?_ he)
    fun _ b u hrb => (assignFields_ts _ b.fields u).trans (if_neg (ne_of_isRestoreOf (hrb ▸ hm)))
  simpa [isCounterRead_of_instrOf hi] using hr

/-- A step that runs an instruction runs it with its operation taken off the trace, and moves at most the firmware. -/
theorem step_of_instrOf {i : Instr} (hi : instrOf r = some i) : ∃ u fw, exec i (s.setPending s.pending.tail) = .next u ∧
    t = u.setFirmware fw := by
  obtain ⟨u, hu, ⟨-, rfl⟩ | ⟨l, -, -, -, rfl⟩⟩ := step_of_nextRequest hc hn h
  · exact ⟨t, t.firmware, perform_of_instrOf hi hu, rfl⟩
  · exact ⟨u, _, perform_of_instrOf hi hu, rfl⟩

/-- A step that performs a transmit write halts on the system-reset identifier or logs another one (R93, R94). -/
theorem step_transmit_cases (hr : isTransmit r = true) :
    (t.halted = true ∧ muCommand t.mu = cmdSystemReset ∧ t.log = s.log) ∨
    (t.halted = false ∧ muCommand t.mu ≠ cmdSystemReset ∧ t.log = s.log ++ [.muCmd (muCommand t.mu)]) := by
  obtain ⟨i, hi, hit⟩ := (Option.any_eq_true _ _).mp hr
  obtain ⟨u, fw, hu, rfl⟩ := step_of_instrOf hc hn h hi
  exact (exec_transmit_cases hit hu).2

/-- What becomes of trace and firmware: the operation issued is taken off, and the lines stay (R17, log entry 33). -/
theorem step_keeps_trace : t.pending = s.pending.tail ∧ t.firmware.lines = s.firmware.lines ∧
    (s.pending ≠ [] → t.firmware = s.firmware) := by
  obtain ⟨u, hu, hd⟩ := step_of_nextRequest hc hn h
  obtain ⟨-, hp, hf⟩ := perform_keeps hu
  have hlines : u.firmware.lines = s.firmware.lines := congrArg Firmware.lines hf
  obtain ⟨-, rfl⟩ | ⟨l, hnil, -, -, rfl⟩ := hd
  · exact ⟨hp, hlines, fun _ => hf⟩
  · exact ⟨hp, hlines, fun hne => absurd hnil hne⟩

end

/-- Settles O40: clause by clause, the operation does not change a part unless it is one of the part's own. -/
theorem eachPartChangesOnlyByItsOwnOperations : Obligations.EachPartChangesOnlyByItsOwnOperations := by
  intro s t r hc hn h
  obtain ⟨hp, hlines, hfw⟩ := step_keeps_trace hc hn h
  refine ⟨constructed_of_nextRequest hc hn h, hp, hlines, hfw, fun hne => ?_, fun hne => ?_, fun hne => ?_,
    fun hm _ => step_keeps_muCell hc hn h hm, fun hne => ?_, fun hne => ?_, step_keeps_log hc hn h, fun hr hh => ?_⟩
  · by_contra hr
    exact hne (step_fsb hc hn (Bool.eq_false_iff.mpr hr) h)
  · by_contra hr
    exact hne (step_keeps_halted hc hn h (Bool.eq_false_iff.mpr hr))
  · by_contra hr
    obtain ⟨hr, hm⟩ := not_or.mp hr
    exact hne (step_keeps_mu hc hn h (Bool.eq_false_iff.mpr hr) (Bool.eq_false_iff.mpr hm))
  · by_contra hr
    obtain ⟨hr, hm⟩ := not_or.mp hr
    exact hne (step_keeps_sim hc hn h (fun k hk => Bool.eq_false_iff.mpr fun hw => hr ⟨k, hk, hw⟩)
      (Bool.eq_false_iff.mpr hm))
  · by_contra hr
    obtain ⟨hr, hm⟩ := not_or.mp hr
    exact hne (step_keeps_ts hc hn h (Bool.eq_false_iff.mpr hr) (Bool.eq_false_iff.mpr hm))
  · obtain ⟨ht, -⟩ | ⟨-, -, hlog⟩ := step_transmit_cases hc hn h hr
    · cases hh.symm.trans ht
    · exact hlog

/-! ## The halt (R31, R122) -/

/-- An operation ends in a halt exactly when it is a transmit write that leaves the system-reset identifier. -/
theorem perform_halted_iff {r : Request} {s t : State} (h : perform r s = .next t) :
    t.halted = true ↔ isTransmit r = true ∧ muCommand t.mu = cmdSystemReset := by
  cases hr : isTransmit r with
  | false =>
    have hkeep : t.halted = s.halted := perform_keeps_part isPart_halted h
      (fun i hi he => (exec_keeps_mu ((isTransmit_of_instrOf hi).symm.trans hr) he).2.2)
      fun d b _ => assignFields_halted d b.fields s
    simp [hkeep, (perform_cases h).1]
  | true =>
    obtain ⟨i, hi, hit⟩ := (Option.any_eq_true _ _).mp hr
    obtain ⟨-, ⟨hh, hcmd, -⟩ | ⟨hh, hcmd, -⟩⟩ := exec_transmit_cases hit (perform_of_instrOf hi h)
    · simp [hh, hcmd]
    · simp [hh, hcmd]

/-- The identifier in the words of R57 and R94. -/
theorem muCommand_eq_reset_iff (mu : RF 256) :
    muCommand mu = cmdSystemReset ↔ (rfRead mu 0x200).extractLsb' 16 8 = 0xC7 := by
  rw [muCommand, cmdId_eq_extract]
  rfl

/-- Settles O41: CONSTRUCT leaves a zero mailbox, an idle step leaves the state, and every other step is that of an
operation. -/
theorem haltedExactlyBySystemReset : Obligations.HaltedExactlyBySystemReset := by
  refine ⟨rfl, fun s t hh h => ?_, fun s hh => ⟨step_of_halted hh, perform_of_halted hh⟩⟩
  simp only [← muCommand_eq_reset_iff]
  obtain ⟨-, ⟨l, -, -, -, rfl⟩ | ⟨hp, hf, rfl⟩ | ⟨r, rest, hp, hr⟩ | ⟨l, u, hp, hf, hu, rfl⟩⟩ := step_cases h
  · have hzero : muCommand (rfInit 256) ≠ cmdSystemReset := by
      rw [muCommand, rfRead_rfInit]
      decide
    exact ⟨nofun, fun ⟨_, _, _, hcmd⟩ => absurd hcmd hzero⟩
  · simp [hh, State.nextRequest, hp, hf]
  · simp [perform_halted_iff hr, State.nextRequest, hp]
  · simp [perform_halted_iff hu, State.nextRequest, hp, hf]

/-! ## The invariant -/

/-- Of a state that is not halted the invariant says four things. -/
theorem Inv.of_running {s : State} (hh : s.halted = false) (hcells : ∀ i, 191 ≤ i → rfRead s.mu (4 * i) = 0)
    (hresp : ∀ id, s.resp ≠ .halted id) (hlog : Event.muCmd cmdSystemReset ∉ s.log)
    (hunbuilt : s.constructed = false → s.log = []) : Inv s where
  unnamedCellsZero := hcells
  haltedByReset h := by cases hh.symm.trans h
  haltedBuilt h := by cases hh.symm.trans h
  haltedOutcome h := by cases hh.symm.trans h
  outcomeHalted id h := absurd h (hresp id)
  logNoReset := hlog
  unbuiltLogEmpty := hunbuilt

theorem Inv.resp_ne_halted {s : State} (hi : Inv s) (hh : s.halted = false) (id : BitVec 8) : s.resp ≠ .halted id :=
  fun h => by cases hh.symm.trans (hi.outcomeHalted id h)

/-- Trace and firmware are not in the invariant. -/
theorem Inv.setPending {s : State} (hi : Inv s) (rs : List Request) : Inv (s.setPending rs) :=
  ⟨hi.unnamedCellsZero, hi.haltedByReset, hi.haltedBuilt, hi.haltedOutcome, hi.outcomeHalted, hi.logNoReset,
    hi.unbuiltLogEmpty⟩

theorem Inv.setFirmware {s : State} (hi : Inv s) (fw : Firmware) : Inv (s.setFirmware fw) :=
  ⟨hi.unnamedCellsZero, hi.haltedByReset, hi.haltedBuilt, hi.haltedOutcome, hi.outcomeHalted, hi.logNoReset,
    hi.unbuiltLogEmpty⟩

/-- A RESTORE leaves the mailbox cells without a name (log entry 24). -/
theorem assignFields_muCell (d : Dev) (ws : List Word) (s : State) {j : Nat} (hj : 191 ≤ j) :
    rfRead (assignFields d ws s).mu (4 * j) = rfRead s.mu (4 * j) := by
  by_cases hd : d = .mu
  · subst hd
    refine rfRead_rfRestore_other s.mu muOrder ws fun i hi => ?_
    rw [muOrder_eq_range, List.mem_range] at hi
    omega
  · rw [assignFields_mu hd]

/-- An instruction that halts has the outcome `Halted(0xC7)`, and no other one has a halt's (R121). -/
theorem exec_halt_outcome {i : Instr} {s t : State} (h : exec i s = .next t) :
    (t.halted = true → t.resp = .halted cmdSystemReset) ∧ ∀ id, t.resp = .halted id → t.halted = true := by
  have hrun : s.halted ≠ true := Bool.eq_false_iff.mp (exec_cases h).1.1
  obtain ⟨-, ⟨-, q, hq, rfl⟩ | ⟨-, rfl⟩ | ⟨k, v, -, -, -, rfl⟩ | ⟨n, v, -, hd⟩⟩ := exec_cases h
  · refine ⟨fun hh => absurd hh hrun, fun id hr => ?_⟩
    rw [show q = .halted id from hr] at hq
    exact hq.elim
  · exact ⟨fun hh => absurd hh hrun, nofun⟩
  · exact ⟨fun hh => absurd hh hrun, nofun⟩
  · obtain ⟨-, rfl⟩ | ⟨-, rfl⟩ := decodeCommand_cases hd
    · exact ⟨fun _ => rfl, fun _ _ => rfl⟩
    · exact ⟨fun hh => absurd hh hrun, nofun⟩

theorem exec_keeps_inv {i : Instr} {s t : State} (hi : Inv s) (h : exec i s = .next t) : Inv t := by
  have hl := (exec_cases h).1
  have hc : t.constructed = true := (constructed_of_construction (exec_keeps h).1).trans hl.2
  have hcells : ∀ j, 191 ≤ j → rfRead t.mu (4 * j) = 0 := fun j hj =>
    (exec_keeps_muCell h (by omega)).trans (hi.unnamedCellsZero j hj)
  have hmu : (t.halted = true → muCommand t.mu = cmdSystemReset) ∧ Event.muCmd cmdSystemReset ∉ t.log := by
    cases ht : isMuTransmit i with
    | false =>
      obtain ⟨-, hlog, hh⟩ := exec_keeps_mu ht h
      exact ⟨fun htrue => (nomatch hl.1.symm.trans (hh.symm.trans htrue)), hlog ▸ hi.logNoReset⟩
    | true =>
      obtain ⟨-, ⟨-, hcmd, hlog⟩ | ⟨hh, hcmd, hlog⟩⟩ := exec_transmit_cases ht h
      · exact ⟨fun _ => hcmd, hlog ▸ hi.logNoReset⟩
      · refine ⟨fun htrue => (nomatch hh.symm.trans htrue), ?_⟩
        simpa [hlog, hi.logNoReset] using hcmd.symm
  obtain ⟨hresp, hhalt⟩ := exec_halt_outcome h
  exact ⟨hcells, hmu.1, fun _ => hc, hresp, hhalt, hmu.2, fun hf => nomatch hf.symm.trans hc⟩

theorem perform_keeps_inv {r : Request} {s t : State} (hi : Inv s) (h : perform r s = .next t) : Inv t := by
  obtain ⟨hh, ⟨-, -, q, hq, rfl⟩ | ⟨-, -, i, -, he⟩ | ⟨-, d, b, -, -, -, rfl⟩⟩ := perform_cases h
  · exact .of_running hh hi.unnamedCellsZero (fun id hr => hi.resp_ne_halted hh id ((hq id hr).symm.trans hr))
      hi.logNoReset hi.unbuiltLogEmpty
  · exact exec_keeps_inv hi he
  · refine .of_running ((assignFields_halted d _ s).trans hh)
      (fun j hj => (assignFields_muCell d _ s hj).trans (hi.unnamedCellsZero j hj)) nofun ?_ ?_
    · simpa using hi.logNoReset
    · simpa using hi.unbuiltLogEmpty

/-- CONSTRUCT makes a block that meets the invariant. -/
theorem inv_built (l : Launch) (s : State) : Inv (built l s) :=
  .of_running rfl (fun _ _ => rfRead_rfInit _) nofun List.not_mem_nil fun _ => rfl

/-- Settles O55: the zeros of RF_INIT, and an empty log. -/
theorem invariantHoldsAtReset : Obligations.InvariantHoldsAtReset :=
  .of_running rfl (fun _ _ => rfRead_rfInit _) nofun List.not_mem_nil fun _ => rfl

/-- Settles O56: CONSTRUCT makes the invariant, an idle step leaves the state, and every operation keeps it. -/
theorem everyStepKeepsTheInvariant : Obligations.EveryStepKeepsTheInvariant := by
  intro s t hi h
  obtain ⟨-, ⟨l, -, -, -, rfl⟩ | ⟨-, -, rfl⟩ | ⟨r, rest, -, hr⟩ | ⟨l, u, -, -, hu, rfl⟩⟩ := step_cases h
  · exact inv_built l s
  · exact hi
  · exact perform_keeps_inv (hi.setPending rest) hr
  · exact (perform_keeps_inv hi hu).setFirmware _

end Sys2Proof.Machine

/-! PROOFS. The family 'other', runs: the counter counts its reads (R110), a GPR read returns the latest write and an FSB
read the construction-time copy (R47), and endless waits (R146, R149). -/

namespace Sys2Proof.Machine

/-! ## What a run performs -/

/-- A run over operations issued performs these (R47). -/
theorem performed_of_pending {rs rest : List Request} {s t : State} (hc : s.constructed = true)
    (hp : s.pending = rs ++ rest) (h : RunsTo s rs.length t) : performed rs.length s = rs := by
  induction rs generalizing s with
  | nil => rfl
  | cons r rs ih =>
    obtain ⟨u, hu, hrun⟩ := runsTo_succ.mp h
    have hn : s.nextRequest = some r := by simp [State.nextRequest, hp]
    have hpu : u.pending = rs ++ rest := by rw [(step_keeps_trace hc hn hu).1, hp, List.cons_append, List.tail_cons]
    rw [List.length_cons, performed_succ hu, hn, ih (constructed_of_nextRequest hc hn hu) hpu hrun]
    rfl

/-- What a run performs was issued, or is a transaction of the firmware (R47, log entry 33). -/
theorem mem_performed {k : Nat} {s t : State} (hc : s.constructed = true) (h : RunsTo s k t) {r : Request}
    (hr : r ∈ performed k s) : r ∈ s.pending.take k ∨ ∃ x, r = .bus x := by
  induction k generalizing s with
  | zero => cases hr
  | succ k ih =>
    obtain ⟨u, hu, hrun⟩ := runsTo_succ.mp h
    rw [performed_succ hu, List.mem_append, Option.mem_toList] at hr
    cases hn : s.nextRequest with
    | none =>
      obtain rfl := step_of_noRequest hc hn hu
      rw [hn] at hr
      obtain hr | hr := hr
      · cases hr
      · exact (ih hc hrun hr).imp_left fun hm => (List.take_prefix_take_left (Nat.le_succ k)).subset hm
    | some q =>
      have hp := (step_keeps_trace hc hn hu).1
      have hcu := constructed_of_nextRequest hc hn hu
      cases hq : s.pending with
      | nil =>
        rw [hq] at hp
        simp only [State.nextRequest, hq, Option.map_eq_some_iff] at hr
        obtain ⟨l, -, rfl⟩ | hr := hr
        · exact .inr ⟨l.op, rfl⟩
        · exact .inr ((ih hcu hrun hr).resolve_left (by simp [hp]))
      | cons p ps =>
        rw [hq, List.tail_cons] at hp
        simp only [State.nextRequest, hq, Option.some.injEq] at hr
        rw [List.take_succ_cons, List.mem_cons]
        obtain rfl | hr := hr
        · exact .inl (.inl rfl)
        · exact (ih hcu hrun hr).imp_left fun hm => .inr (hp ▸ hm)

/-! ## The counter (R110) -/

/-- A step that does not restore the counter adds one to its low word exactly when it reads it. -/
theorem step_counts {s t : State} {r : Request} (hc : s.constructed = true) (hn : s.nextRequest = some r)
    (hr : isRestoreOf .tstmr r = false) (h : step s = .next t) :
    t.ts.low = s.ts.low + (if isCounterRead r then 1 else 0) ∧ t.ts.high = s.ts.high := by
  cases hread : isCounterRead r with
  | false =>
    rw [step_keeps_ts hc hn h hread hr]
    exact ⟨(BitVec.add_zero _).symm, rfl⟩
  | true =>
    have hi : instrOf r = some .tstmrRdLo := eq_of_beq hread
    obtain ⟨u, fw, hu, rfl⟩ := step_of_instrOf hc hn h hi
    obtain rfl := Host.Outcome.next.inj ((exec_tstmrRdLo (exec_cases hu).1).symm.trans hu)
    exact ⟨rfl, rfl⟩

theorem ofNat_counterReads_cons (r : Request) (rs : List Request) : BitVec.ofNat 32 (counterReads (r :: rs)) =
    (if isCounterRead r then 1 else 0) + BitVec.ofNat 32 (counterReads rs) := by
  cases hr : isCounterRead r <;> simp [counterReads, hr, BitVec.ofNat_add, BitVec.add_comm]

/-- A run without a RESTORE of the counter adds the number of its reads. -/
theorem run_counts {s t : State} {k : Nat} (hc : s.constructed = true)
    (hr : ∀ r ∈ performed k s, isRestoreOf .tstmr r = false) (h : RunsTo s k t) : t.constructed = true ∧
      t.ts.low = s.ts.low + BitVec.ofNat 32 (counterReads (performed k s)) ∧ t.ts.high = s.ts.high := by
  refine run_induction (ok := fun r => isRestoreOf .tstmr r = false)
    (R := fun l s t => t.ts.low = s.ts.low + BitVec.ofNat 32 (counterReads l) ∧ t.ts.high = s.ts.high)
    (fun s => ⟨(BitVec.add_zero _).symm, rfl⟩) (fun s u t r l hc hn hok hu _ ih => ?_) k s t hc hr h
  obtain ⟨hlow, hhigh⟩ := step_counts hc hn hok hu
  rw [ih.1, ih.2, hlow, hhigh, ofNat_counterReads_cons, BitVec.add_assoc]
  exact ⟨rfl, rfl⟩

/-- After such a run a further read answers the count. -/
theorem run_counts_read {s t : State} {k : Nat} (hc : s.constructed = true)
    (hr : ∀ r ∈ performed k s, isRestoreOf .tstmr r = false) (h : RunsTo s k t) :
    t.ts.low = s.ts.low + BitVec.ofNat 32 (counterReads (performed k s)) ∧ t.ts.high = s.ts.high ∧
    (t.halted = false → ∃ u, step (t.issuing (.bus (.rd .tstmr 0))) = .next u ∧
      u.resp = .rdata (s.ts.low + BitVec.ofNat 32 (counterReads (performed k s)))) := by
  obtain ⟨hct, hlow, hhigh⟩ := run_counts hc hr h
  exact ⟨hlow, hhigh, fun hh => ⟨_, step_rd_tstmr_lo ⟨hh, hct⟩, by rw [← hlow]; rfl⟩⟩

/-- Settles O57: step by step, and for operations issued the run performs just these. -/
theorem counterCountsItsReads : Obligations.CounterCountsItsReads := by
  refine ⟨fun s t r hl hn hr h => step_counts hl.2 hn hr h, fun s t k hl hr h => run_counts_read hl.2 hr h,
    fun s t rs rest hl hp hr h => ?_⟩
  have hperf := performed_of_pending hl.2 hp h
  have hcount := run_counts_read hl.2 (by rwa [hperf]) h
  rwa [hperf] at hcount

/-! ## The GPRs (R47 (a)) -/

/-- An instruction that does not write GPR `k` leaves its cell. -/
theorem exec_keeps_gpr {i : Instr} {s t : State} {k : Nat} (hk : k < 10) (hi : gprWritten i ≠ some k)
    (h : exec i s = .next t) : t.sim[4 + k] = s.sim[4 + k] := by
  cases hj : gprWritten i with
  | none => rw [exec_keeps_sim hj h]
  | some j =>
    have hjk : j ≠ k := fun heq => hi (heq ▸ hj)
    obtain rfl := Host.Outcome.next.inj ((exec_of_gprWritten (exec_cases h).1 hj).symm.trans h)
    change (rfWrite s.sim (gprOffset j) i.wdata)[4 + k] = s.sim[4 + k]
    rw [← rfRead_cell, ← rfRead_cell, rfRead_rfWrite_other _ _ (by rw [gprOffset]; omega)]

/-- A step that neither writes GPR `k` nor restores SIM0 leaves its cell. -/
theorem step_keeps_gpr {s t : State} {r : Request} (k : Fin 10) (hc : s.constructed = true)
    (hn : s.nextRequest = some r) (hw : isGprWrite k.val r = false) (hr : isRestoreOf .sim0 r = false)
    (h : step s = .next t) : t.sim[4 + k.val] = s.sim[4 + k.val] := by
  refine step_keeps_part (isPart_sim.comp (·[4 + k.val])) hc hn h (fun i u v hi he => exec_keeps_gpr k.isLt ?_ he)
    fun _ b u hrb => congrArg (·[4 + k.val]) (assignFields_sim (ne_of_isRestoreOf (hrb ▸ hr)) b.fields u)
  simpa [isGprWrite_of_instrOf hi] using hw

/-- So does a run, and a read after it answers the first state's cell. -/
theorem run_keeps_gpr {s t : State} {n : Nat} (k : Fin 10) (hc : s.constructed = true)
    (hr : ∀ r ∈ performed n s, isGprWrite k.val r = false ∧ isRestoreOf .sim0 r = false) (h : RunsTo s n t)
    (hh : t.halted = false) :
    ∃ w, step (t.issuing (.bus (.rd .sim0 (0x10 + 4 * k.val)))) = .next w ∧ w.resp = .rdata s.sim[4 + k.val] := by
  obtain ⟨hct, hcell⟩ := run_induction (ok := fun r => isGprWrite k.val r = false ∧ isRestoreOf .sim0 r = false)
    (R := fun _ s t => t.sim[4 + k.val] = s.sim[4 + k.val]) (fun _ => rfl)
    (fun _ _ _ _ _ hc hn hok hu _ ih => ih.trans (step_keeps_gpr k hc hn hok.1 hok.2 hu)) n s t hc hr h
  exact ⟨_, sim0GprReadReturnsTheCell t ⟨hh, hct⟩ k, by rw [← hcell]; rfl⟩

/-- The state after a write of GPR `k`: constructed, with the word in its cell and the trace as it was. -/
theorem step_wr_gpr {s u : State} (hl : s.Live) (k : Fin 10) (v : Word)
    (h : step (s.issuing (.bus (.wr .sim0 (0x10 + 4 * k.val) v))) = .next u) :
    u.constructed = true ∧ u.sim[4 + k.val] = v ∧ u.pending = s.pending := by
  obtain rfl := Host.Outcome.next.inj ((sim0GprWriteStoresTheWord s hl k v).symm.trans h)
  exact ⟨hl.2, Vector.getElem_set_self _, rfl⟩

/-- Settles O58: the write leaves its word in the cell, and the run after it keeps the cell. -/
theorem gprReadReturnsTheLatestWrite : Obligations.GprReadReturnsTheLatestWrite := by
  refine ⟨fun s t k r hl hn hw hr h => step_keeps_gpr k hl.2 hn hw hr h,
    fun s t k n hl hr h hh => run_keeps_gpr k hl.2 hr h hh, fun s u t k v n hl hu hr h hh => ?_,
    fun s u t k v rs rest hl hp hr hu h hh => ?_⟩
  · obtain ⟨hcu, hv, -⟩ := step_wr_gpr hl k v hu
    exact hv ▸ run_keeps_gpr k hcu hr h hh
  · obtain ⟨hcu, hv, hpu⟩ := step_wr_gpr hl k v hu
    have hperf := performed_of_pending hcu (hpu.trans hp) h
    exact hv ▸ run_keeps_gpr k hcu (by rwa [hperf]) h hh

/-! ## The FSB (R47 (e), R88) -/

/-- A run with no RESTORE of the FSB among the operations issued leaves the FSB, and a read after it answers the first
state's cell. -/
theorem run_keeps_fsb {s t : State} {k : Nat} (hc : s.constructed = true)
    (hr : ∀ r ∈ s.pending.take k, isRestoreOf .fsb r = false) (h : RunsTo s k t) (hh : t.halted = false) (i : Fin 256) :
    ∃ u, step (t.issuing (.bus (.rd .fsb (4 * i.val)))) = .next u ∧ u.resp = .rdata s.fsb[i] := by
  have hperf : ∀ r ∈ performed k s, isRestoreOf .fsb r = false := fun r hm => by
    obtain hm | ⟨x, rfl⟩ := mem_performed hc h hm
    · exact hr r hm
    · rfl
  obtain ⟨hct, hfsb⟩ := run_induction (ok := fun r => isRestoreOf .fsb r = false) (R := fun _ s t => t.fsb = s.fsb)
    (fun _ => rfl) (fun _ _ _ _ _ hc hn hok hu _ ih => ih.trans (step_fsb hc hn hok hu)) k s t hc hperf h
  exact ⟨_, fsbReadReturnsTheCell t ⟨hh, hct⟩ i, by rw [← hfsb]; rfl⟩

/-- Settles O59: the run keeps the FSB, from reset the one FSB.LOAD made. -/
theorem fsbReadsReturnTheConstructionCopy : Obligations.FsbReadsReturnTheConstructionCopy := by
  refine ⟨fun s t r hl hn hr h => step_fsb hl.2 hn hr h, fun s t k i hl hr h hh => run_keeps_fsb hl.2 hr h hh i,
    fun t rs f k i hr h hh => ?_⟩
  exact run_keeps_fsb (s := (State.reset.setPending rs).setFirmware f) rfl (fun r hm => hr r (List.mem_of_mem_take hm)) h
    hh i

/-! ## Endless waits (R146, R149) -/

/-- Firmware at a line that only answers a word, and that stays at the line for this word, runs any number of steps: the
response does not matter to the next one. -/
theorem runsTo_of_poll {s : State} {l : Line} {i : Instr} {w : Word} (hl : s.Live) (hp : s.pending = [])
    (hf : s.firmware.current = some l) (hd : decode l.op = .ok i) (hx : exec i s = .next (s.setResp (.rdata w)))
    (ht : l.target (.rdata w) = s.firmware.pos) (k : Nat) : ∃ r, RunsTo s k (s.setResp r) := by
  have hstep (q : Response) : step (s.setResp q) = .next (s.setResp (.rdata w)) := by
    have hlq : (s.setResp q).Live := hl
    rw [step_of_firmware (l := l) hlq hp hf, busTransaction_ok hlq hd, exec_setResp, hx, afterLine_next,
      advance_of_target ht]
  suffices hrun : ∀ q, ∃ r, RunsTo (s.setResp q) k (s.setResp r) from hrun s.resp
  induction k with
  | zero => exact fun q => ⟨q, rfl⟩
  | succ k ih =>
    intro q
    obtain ⟨r, hr⟩ := ih (.rdata w)
    exact ⟨r, runsTo_succ.mpr ⟨_, hstep q, hr⟩⟩

/-- A live block with nothing issued and firmware that decodes and writes no transmit word. -/
structure Quiet (s : State) : Prop where
  live : s.Live
  pending : s.pending = []
  lines : ∀ l ∈ s.firmware.lines, ∃ i, decode l.op = .ok i ∧ isMuTransmit i = false

/-- Such a block has a step, and stays such a block: its line decodes, completes, and does not halt. -/
theorem Quiet.step {s : State} (h : Quiet s) : ∃ t, step s = .next t ∧ Quiet t := by
  obtain ⟨hl, hp, hlines⟩ := h
  cases hf : s.firmware.current with
  | none =>
    refine ⟨s, idleBlockStays s hl.ready hp ?_, hl, hp, hlines⟩
    exact List.getElem?_eq_none_iff.mp hf
  | some l =>
    obtain ⟨i, hd, hi⟩ := hlines l (List.mem_of_getElem? hf)
    obtain ⟨t, ht⟩ := exec_completes hl i
    obtain ⟨hc, hpt, hfw⟩ := exec_keeps ht
    refine ⟨advance l t, by rw [step_of_firmware hl hp hf, busTransaction_ok hl hd, ht, afterLine_next], ?_, ?_, ?_⟩
    · exact ⟨(exec_keeps_mu hi ht).2.2.trans hl.1, (constructed_of_construction hc).trans hl.2⟩
    · exact hpt.trans hp
    · rwa [advance_firmware, hfw]

theorem Quiet.runs {s : State} (h : Quiet s) (k : Nat) : ∃ t, RunsTo s k t ∧ t.Live := by
  induction k generalizing s with
  | zero => exact ⟨s, rfl, h.live⟩
  | succ k ih =>
    obtain ⟨u, hu, hq⟩ := h.step
    obtain ⟨t, ht, htl⟩ := ih hq
    exact ⟨t, runsTo_succ.mpr ⟨u, hu, ht⟩, htl⟩

/-- Settles O60: each register polled answers one word for ever, and a quiet block stays quiet. -/
theorem endlessWaitsRunForEver : Obligations.EndlessWaitsRunForEver := by
  refine ⟨fun s l hl hp hf hpoll => ?_, fun s hl hp hlines => Quiet.runs ⟨hl, hp, hlines⟩⟩
  obtain ⟨n, hop, ht⟩ | ⟨hop | hop, ht⟩ | ⟨hop, ht⟩ := hpoll
  · have hd : decode l.op = .ok (.muRdRr ⟨n⟩) := hop ▸ decode_rd_mu_rr ⟨n⟩
    refine runsTo_of_poll hl hp hf hd ?_ ht
    rw [exec_muRdRr hl, rfRead_at s.mu (i := 160 + n.val) (by change 0x280 + 4 * n.val = 4 * (160 + n.val); omega)]
  · exact runsTo_of_poll hl hp hf (hop ▸ decode_rd_mu_tsr) (exec_muRdTsr hl) ht
  · exact runsTo_of_poll hl hp hf (hop ▸ decode_rd_mu_rsr) (exec_muRdRsr hl) ht
  · exact runsTo_of_poll hl hp hf (hop ▸ decode_rd_tstmr_hi) (exec_tstmrRdHi hl) ht

end Sys2Proof.Machine
